-- ==== Sys2Proof/Word.lean ====
section
/-! DEFINITION. The number types of the machine (00_scope.md R4, R6; 10_state.md R10, R12).
The content of a register or a cell is a Lean `Int`: "A model should represent a register as an integer with the bounds as an
invariant" (R12), so the range is an invariant of the state, not part of the type (log 1). An address, pc and sp are `Nat`. -/

namespace Sys2Proof

/-- The 17-bit two's complement pattern of a cell (R4, R12; decision D1). Only encodings are shown this way. -/
abbrev Pattern := BitVec 17

/-- The general registers (R10): "There are no aliases, no register numbers". -/
inductive Reg where
  | A | B | C
  deriving DecidableEq, Repr

/-- The general registers as a list: as many as NREGS says (00_scope.md R3). -/
def Reg.all : List Reg := [.A, .B, .C]

end Sys2Proof
end

