-- ==== Sys2Proof/Config.lean ====
section
/-! DEFINITION. The implementation parameters of 00_scope.md R3 and their default values. They are configuration, not
state: "they do not change during a run and no instruction reads or writes them" (10_state.md R22). -/

namespace Sys2Proof

/-- The 20 mnemonics (30_encoding.md R54), in the order of spec/opcode_table.json: the domain of OPC. -/
inductive Mnemonic where
  | nop | lda | ldb | sta | stb | ldm | mst | mld | psh | pop
  | add | sub | mul | div | exp | jmp | jmz | jmu | jmo | hlt
  deriving DecidableEq, Repr

/-- The closed enumeration of R54 as a list. -/
def Mnemonic.all : List Mnemonic :=
  [.nop, .lda, .ldb, .sta, .stb, .ldm, .mst, .mld, .psh, .pop,
   .add, .sub, .mul, .div, .exp, .jmp, .jmz, .jmu, .jmo, .hlt]

/-- DIV_ZERO_POLICY: the two admitted settings of 44_arithmetic.md R118. -/
inductive DivZeroPolicy where
  | fault
  | saturate
  deriving DecidableEq, Repr

/-- INEXACT_POLICY: the settings of 44_arithmetic.md R119; `round f` carries the configured rounding function. -/
inductive InexactPolicy where
  | fault
  | round (f : Rat → Int)

/-- `f q = q` on integers and `|f q - q| < 1` (R119). -/
def RoundingLegal (f : Rat → Int) : Prop :=
  (∀ n : Int, f n = n) ∧ ∀ q : Rat, |(f q : Rat) - q| < 1

/-- The named instance `floor` of R119: toward minus infinity. -/
def roundFloor (q : Rat) : Int := q.floor

/-- The named instance `trunc` of R119: toward zero. -/
def roundTrunc (q : Rat) : Int := if 0 ≤ q then q.floor else -(-q).floor

/-- The parameters of R3, each a field. The source fixes VAL_MAX, VAL_MIN, NREGS and SP_RESET (`Config.Legal` says to
what); the others are open or decided. -/
structure Config where
  /-- VAL_MAX, the largest value a register or a cell holds. -/
  valMax : Int
  /-- VAL_MIN, the smallest value a register or a cell holds. -/
  valMin : Int
  /-- NREGS, the number of general registers. -/
  nregs : Nat
  /-- MEM_TOP, the highest valid program-memory address. -/
  memTop : Nat
  /-- STACK_TOP, the highest valid stack address. -/
  stackTop : Nat
  /-- RESET_VECTOR, the value of pc after reset. -/
  resetVector : Nat
  /-- SP_RESET, the value of sp after reset. -/
  spReset : Nat
  /-- OPC, the map from mnemonics to opcode values. -/
  opc : Mnemonic → Nat
  /-- DIV_ZERO_POLICY. -/
  divZero : DivZeroPolicy
  /-- INEXACT_POLICY. -/
  inexact : InexactPolicy

/-- The values R3 says the source fixes, the constraints it puts on the open parameters, and R119's on a rounding
function. The range is symmetric: VAL_MIN is -65535, not -65536 (R110). -/
structure Config.Legal (cfg : Config) : Prop where
  valMax_eq : cfg.valMax = 65535
  valMin_eq : cfg.valMin = -65535
  nregs_eq : cfg.nregs = Reg.all.length
  spReset_eq : cfg.spReset = 0
  resetVector_le : cfg.resetVector ≤ cfg.memTop
  opc_injective : ∀ m n, cfg.opc m = cfg.opc n → m = n
  opc_byte : ∀ m, cfg.opc m ≤ 255
  rounding : ∀ f, cfg.inexact = .round f → RoundingLegal f

/-- `v` is a value: a member of the set V (R4). -/
abbrev InV (cfg : Config) (v : Int) : Prop := cfg.valMin ≤ v ∧ v ≤ cfg.valMax

/-- OP_NOP, also the fill value of both memories at reset (R3, R21): the value an unlisted address reads as. -/
def Config.fill (cfg : Config) : Int := (cfg.opc .nop : Int)

/-- The default opcode map of 30_encoding.md R54 (the spec's decision D5; DESIGN CHOICE, log 3). -/
def Config.defaultOpc : Mnemonic → Nat
  | .nop => 0x00 | .lda => 0x01 | .ldb => 0x02 | .sta => 0x03 | .stb => 0x04
  | .ldm => 0x05 | .mst => 0x06 | .mld => 0x07 | .psh => 0x08 | .pop => 0x09
  | .add => 0x0A | .sub => 0x0B | .mul => 0x0C | .div => 0x0D | .exp => 0x0E
  | .jmp => 0x0F | .jmz => 0x10 | .jmu => 0x11 | .jmo => 0x12 | .hlt => 0x13

/-- The default parameters of R3 (the open ones by decisions D2 to D5, D10, D11; DESIGN CHOICE, log 3): the configuration that `exec`,
`step` and `State.reset` use. -/
def Config.default : Config where
  valMax := 65535
  valMin := -65535
  nregs := 3
  memTop := 0xFFFE
  stackTop := 0xFFFE
  resetVector := 0xFF00
  spReset := 0
  opc := Config.defaultOpc
  divZero := .fault
  inexact := .fault

end Sys2Proof
end

