-- ==== Sys2Proof/Syntax.lean ====
section
/-! DEFINITION. The instructions: one constructor per row of spec/opcode_table.json (30_encoding.md R50, R54). -/

namespace Sys2Proof

/-- An instruction. Only LDM has an operand of its own, the immediate cell (R52); every other operand is implied by
the opcode (R50, R53). -/
inductive Instr where
  /-- No operation (R138). -/
  | nop
  /-- Copy A to C (R91). -/
  | lda
  /-- Copy B to C (R92). -/
  | ldb
  /-- Copy C to A (R93). -/
  | sta
  /-- Copy C to B (R94). -/
  | stb
  /-- Load the immediate cell into C (R95). -/
  | ldm (imm : Int)
  /-- Store B into program memory at address C (R101). -/
  | mst
  /-- Load C from program memory at address B (R102). -/
  | mld
  /-- Push C (R106). -/
  | psh
  /-- Pop into C (R107). -/
  | pop
  /-- A + B to C (R113). -/
  | add
  /-- A - B to C (R114). -/
  | sub
  /-- A * B to C (R115). -/
  | mul
  /-- A / B to C (R116). -/
  | div
  /-- A to the power B to C (R120). -/
  | exp
  /-- Jump to C (R132). -/
  | jmp
  /-- Jump to C if Z (R133). -/
  | jmz
  /-- Jump to C if U (R134). -/
  | jmu
  /-- Jump to C if O (R135). -/
  | jmo
  /-- Halt (R137). -/
  | hlt
  deriving DecidableEq, Repr

/-- The mnemonic whose opcode the instruction's first cell holds (R54). -/
def Instr.mnemonic : Instr → Mnemonic
  | .nop => .nop | .lda => .lda | .ldb => .ldb | .sta => .sta | .stb => .stb
  | .ldm _ => .ldm | .mst => .mst | .mld => .mld | .psh => .psh | .pop => .pop
  | .add => .add | .sub => .sub | .mul => .mul | .div => .div | .exp => .exp
  | .jmp => .jmp | .jmz => .jmz | .jmu => .jmu | .jmo => .jmo | .hlt => .hlt

end Sys2Proof
end

