-- ==== Sys2Proof/WellFormed.lean ====
section
/-! DEFINITION. Which instructions exist as cells: LDM's immediate is one cell, so it is a value (30_encoding.md R52). -/

namespace Sys2Proof

/-- Every operand has a value the encoding admits: "any value of V, signed" for LDM's immediate (R52); no other
instruction has an operand to check (R50). -/
def Instr.wellFormed (cfg : Config) : Instr → Bool
  | .ldm imm => decide (InV cfg imm)
  | .nop | .lda | .ldb | .sta | .stb | .mst | .mld | .psh | .pop => true
  | .add | .sub | .mul | .div | .exp | .jmp | .jmz | .jmu | .jmo | .hlt => true

end Sys2Proof
end

