-- ==== Sys2Proof/Decode.lean ====
section
/-! DEFINITION. The decoder and the encoder (30_encoding.md R50 to R58). Instructions are cells, so the decoder reads a list
of cells; a cell's 17-bit pattern is read as two's complement (00_scope.md R4). -/

namespace Sys2Proof

/-- Why the decoder refuses a list of cells. No opcode is ever refused (R56). -/
inductive DecodeError where
  /-- There is no cell to decode. -/
  | noCell
  /-- The cell's content is not in V, so no cell holds it (R12: the pattern of -65536 "is never produced and never
  loaded"). The engine clamps a cell before it decodes it (R72), so a step never meets this. -/
  | notAValue
  /-- An LDM opcode with no cell after it. A step turns this into the fault of R95. -/
  | immediateMissing
  deriving DecidableEq, Repr

/-- `Decode(w)` of R55: the mnemonic whose opcode equals the WHOLE cell value, and NOP for every other value. No
masking to 8 bits (decision D7, 90_conflicts.md C7; log 12). -/
def decodeOpcode (cfg : Config) (w : Int) : Mnemonic :=
  (Mnemonic.all.find? fun m => decide ((cfg.opc m : Int) = w)).getD .nop

/-- The instruction of mnemonic `m`, taking LDM's immediate from the cells after the opcode, with the cells then left
(R51, R52, R53). -/
def assemble (cfg : Config) (m : Mnemonic) (rest : List Int) : Except DecodeError (Instr × List Int) :=
  match m with
  | .ldm =>
    match rest with
    | [] => .error .immediateMissing
    | v :: rest' => if InV cfg v then .ok (.ldm v, rest') else .error .notAValue
  | .nop => .ok (.nop, rest)
  | .lda => .ok (.lda, rest)
  | .ldb => .ok (.ldb, rest)
  | .sta => .ok (.sta, rest)
  | .stb => .ok (.stb, rest)
  | .mst => .ok (.mst, rest)
  | .mld => .ok (.mld, rest)
  | .psh => .ok (.psh, rest)
  | .pop => .ok (.pop, rest)
  | .add => .ok (.add, rest)
  | .sub => .ok (.sub, rest)
  | .mul => .ok (.mul, rest)
  | .div => .ok (.div, rest)
  | .exp => .ok (.exp, rest)
  | .jmp => .ok (.jmp, rest)
  | .jmz => .ok (.jmz, rest)
  | .jmu => .ok (.jmu, rest)
  | .jmo => .ok (.jmo, rest)
  | .hlt => .ok (.hlt, rest)

/-- The instruction at the head of a list of cells, with the cells after it (R55, R58). -/
def decode (cfg : Config) (cells : List Int) : Except DecodeError (Instr × List Int) :=
  match cells with
  | [] => .error .noCell
  | w :: rest => if InV cfg w then assemble cfg (decodeOpcode cfg w) rest else .error .notAValue

/-- The length in cells, told "from the decoded mnemonic alone" (R58). -/
def Mnemonic.length : Mnemonic → Nat
  | .ldm => 2
  | .nop | .lda | .ldb | .sta | .stb | .mst | .mld | .psh | .pop => 1
  | .add | .sub | .mul | .div | .exp | .jmp | .jmz | .jmu | .jmo | .hlt => 1

/-- The cells of an instruction: format F1 for LDM (R52), format F0 for all others (R51). -/
def encode (cfg : Config) (i : Instr) : List Int :=
  match i with
  | .ldm imm => [(cfg.opc .ldm : Int), imm]
  | .nop | .lda | .ldb | .sta | .stb | .mst | .mld | .psh | .pop
  | .add | .sub | .mul | .div | .exp | .jmp | .jmz | .jmu | .jmo | .hlt => [(cfg.opc i.mnemonic : Int)]

/-- The value a 17-bit pattern stands for (R4, R12). -/
def cellOfPattern (p : Pattern) : Int := p.toInt

/-- The 17-bit two's complement pattern of a value (R4, R12). -/
def patternOfCell (v : Int) : Pattern := BitVec.ofInt 17 v

/-- The two cells of an instruction word numbered as spec/opcode_table.json numbers it: the first cell is bits 16 to 0,
the second bits 33 to 17; every bit from `nbits` up is 0 (DESIGN CHOICE, log 13: the spec has no byte order, R31). -/
def cellsOfTableWord (nbits w : Nat) : List Int :=
  let bits := w % 2 ^ nbits
  [cellOfPattern (BitVec.ofNat 17 bits), cellOfPattern (BitVec.ofNat 17 (bits / 2 ^ 17))]

/-- The instruction the decoder reads from such a word, under the default opcode map. -/
def decodeTableWord (nbits w : Nat) : Option Instr :=
  match decode Config.default (cellsOfTableWord nbits w) with
  | .ok (i, _) => some i
  | .error _ => none

end Sys2Proof
end

