-- ==== Sys2Proof/Machine/State.lean ====
section
/-! DEFINITION. The state of the machine (10_state.md), the reasons a step can stop, and the state after Reset. -/

namespace Sys2Proof.Machine

/-- The seven causes of a fault (60_exceptions.md R152). -/
inductive Cause where
  /-- Code 1. DIV with B = 0; EXP with A = 0 and B < 0 (R116, R118, R120). -/
  | divideByZero
  /-- Code 2. DIV or EXP whose exact result is no integer (R116, R119, R120). -/
  | inexactResult
  /-- Code 3. PSH with sp > STACK_TOP (R106). -/
  | stackOverflow
  /-- Code 4. POP with sp = 0 (R107). -/
  | stackUnderflow
  /-- Code 5. MST or MLD at an address outside 0 .. MEM_TOP (R101, R102). -/
  | memAddressOutOfRange
  /-- Code 6. LDM whose immediate would lie beyond MEM_TOP (R95). -/
  | immediateOutOfRange
  /-- Code 7. A taken jump with a negative target (R132 to R136). -/
  | jumpTargetNegative
  deriving DecidableEq, Repr

/-- The engine state `run` (R16). -/
inductive Run where
  | running
  | halted
  | outOfRange
  | faulted (cause : Cause)
  deriving DecidableEq, Repr

/-- One address space: (address, value) pairs in one canonical form, addresses strictly rising and no entry equal to
the fill value OPC(NOP), which every unlisted address reads as (R18, R19, R21; log 2). -/
abbrev Memory := List (Nat × Int)

/-- The whole state (10_state.md R10 to R20): "Nothing else is state". -/
structure State where
  /-- Register A (R10). -/
  a : Int
  /-- Register B (R10). -/
  b : Int
  /-- Register C (R10). -/
  c : Int
  /-- The zero flag Z (R13). -/
  z : Bool
  /-- The negative flag U (R13). -/
  u : Bool
  /-- The positive flag O (R13). -/
  o : Bool
  /-- The program counter (R14). -/
  pc : Nat
  /-- The stack pointer: the index of the next free slot (R15). -/
  sp : Nat
  /-- The engine state (R16). -/
  run : Run
  /-- Program memory (R18). -/
  mem : Memory
  /-- Stack memory (R19). -/
  stack : Memory
  deriving DecidableEq, Repr

/-- Why a step is not defined. Only `step` (through `engineStep`) raises these, never an instruction: an instruction
that meets one of R152's conditions completes into the engine state `Run.faulted`. -/
inductive Fault where
  /-- A step was asked of a Halted machine: "no step is defined" (40_execution_engine.md R80). Raised by `step`. Safe:
  the machine does nothing there. -/
  | halted
  /-- A step was asked of a machine in OutOfRange (R80). Raised by `step`. Safe. -/
  | outOfRange
  /-- A step was asked of a machine in Faulted(cause) (R80, 60_exceptions.md R153). Raised by `step`. Safe. -/
  | faulted (cause : Cause)
  deriving DecidableEq, Repr

/-- Why a request is refused. No step of this model answers a refusal. -/
inductive Refusal where
  /-- The instruction has no meaning yet. Raised by no arm of `exec`: every instruction has its meaning. Safe. -/
  | notModelled (mnemonic : String)
  /-- A Load after Start (70_reset_and_hazards.md R174). Raised by `Session.load`. Safe: the launch is not modelled. -/
  | loadAfterStart
  /-- A Load outside 0 .. MEM_TOP (R174). Raised by `Session.load`. Safe. -/
  | loadAddressInvalid
  /-- A Load of a value outside V (R174, decision D24). Raised by `Session.load`. Safe. -/
  | loadValueInvalid
  /-- A Start after Start (R173 gives the order). Raised by `Session.start`. Safe. -/
  | alreadyStarted
  /-- A step before Start (R173, R175). Raised by `Session.advance`. Safe. -/
  | notStarted
  /-- An Observe while run is Running (R176). Raised by `Session.observe`. Safe. -/
  | observeWhileRunning
  deriving DecidableEq, Repr

/-- The state Reset establishes (R21; 70_reset_and_hazards.md R170), for any parameters: nothing listed in either
memory, so every cell reads OPC(NOP). -/
def State.resetWith (cfg : Config) : State where
  a := 0
  b := 0
  c := 0
  z := false
  u := false
  o := false
  pc := cfg.resetVector
  sp := cfg.spReset
  run := .running
  mem := []
  stack := []

/-- The state Reset establishes under the default parameters. -/
def State.reset : State := State.resetWith Config.default

end Sys2Proof.Machine
end

