-- ==== Sys2Proof/Machine/Ops.lean ====
section
/-! DEFINITION. The named operations over memory, registers, pc, sp and run that every meaning is written with (00_scope.md R5),
and how an instruction ends: completing, halting, jumping or faulting (40_execution_engine.md R75 to R79; 60_exceptions.md R151). -/

namespace Sys2Proof.Machine

/-- What an instruction or a step answers. -/
abbrev Result := Host.Outcome State Fault Refusal

/-- The saturating-range function: n clamped to [VAL_MIN, VAL_MAX] (R5, 44_arithmetic.md R110). -/
def sat (cfg : Config) (n : Int) : Int :=
  if n > cfg.valMax then cfg.valMax else if n < cfg.valMin then cfg.valMin else n

/-! ### Memory (20_memory.md R30 to R34) -/

/-- The value of cell `a`: its listed value, or `fill` where none is listed (10_state.md R21). -/
def Memory.read (fill : Int) : Memory → Nat → Int
  | [], _ => fill
  | (k, v) :: m, a => if k = a then v else Memory.read fill m a

/-- Drop every entry for cell `a`. -/
def Memory.erase : Memory → Nat → Memory
  | [], _ => []
  | (k, v) :: m, a => if k = a then Memory.erase m a else (k, v) :: Memory.erase m a

/-- List cell `a` with value `v`, before the first higher address. -/
def Memory.insert : Memory → Nat → Int → Memory
  | [], a, v => [(a, v)]
  | (k, w) :: m, a, v => if a < k then (a, v) :: (k, w) :: m else (k, w) :: Memory.insert m a v

/-- Cell `a` takes the value `v`; writing the fill value removes the entry, so equal memories are equal lists. -/
def Memory.write (fill : Int) (m : Memory) (a : Nat) (v : Int) : Memory :=
  if v = fill then Memory.erase m a else Memory.insert (Memory.erase m a) a v

/-- The canonical form: addresses strictly rising, no entry equal to `fill`. -/
def Memory.wf (fill : Int) (m : Memory) : Bool :=
  decide ((m.map Prod.fst).Pairwise (· < ·)) && m.all fun e => decide (e.2 ≠ fill)

/-- `MemRead(addr, 1)` (R5). Callers pass a valid address (log 10). -/
def State.memRead (cfg : Config) (s : State) (a : Nat) : Int := Memory.read cfg.fill s.mem a

/-- `MemWrite(addr, 1, v)` (R5). -/
def State.memWrite (cfg : Config) (s : State) (a : Nat) (v : Int) : State :=
  { s with mem := Memory.write cfg.fill s.mem a v }

/-- `StackRead(addr)` (R5). -/
def State.stackRead (cfg : Config) (s : State) (a : Nat) : Int := Memory.read cfg.fill s.stack a

/-- `StackWrite(addr, v)` (R5). -/
def State.stackWrite (cfg : Config) (s : State) (a : Nat) (v : Int) : State :=
  { s with stack := Memory.write cfg.fill s.stack a v }

/-! ### Registers, pc, sp, run -/

/-- `x[r]` (R5). -/
def State.readReg (s : State) : Reg → Int
  | .A => s.a
  | .B => s.b
  | .C => s.c

/-- `x[r] <- v` (R5). -/
def State.writeReg (s : State) (r : Reg) (v : Int) : State :=
  match r with
  | .A => { s with a := v }
  | .B => { s with b := v }
  | .C => { s with c := v }

/-- `pc <- t`. -/
def State.setPc (s : State) (t : Nat) : State := { s with pc := t }

/-- `sp <- t`. -/
def State.setSp (s : State) (t : Nat) : State := { s with sp := t }

/-- `run <- r`. -/
def State.setRun (s : State) (r : Run) : State := { s with run := r }

/-! ### How an instruction ends (R75) -/

/-- `ok` of an instruction of `n` cells: pc moves past them (R76 with n = 1, R77 with n = 2). -/
def completeBy (n : Nat) (s : State) : Result := .next (s.setPc (s.pc + n))

/-- `ok` of a one-cell instruction (R76). -/
def complete (s : State) : Result := completeBy 1 s

/-- `halt`: run <- Halted, pc unchanged (R78; log 11). -/
def halt (s : State) : Result := .next (s.setRun .halted)

/-- `taken(t)`: pc <- t (R79). -/
def takeJump (t : Nat) (s : State) : Result := .next (s.setPc t)

/-- Fault entry (R151): run <- Faulted(cause) and "nothing else is written"; pc stays at the faulting instruction (R78).
There is no handler, no saved-state area and no return from a fault: only Reset leaves Faulted (R153; log 4). -/
def raiseFault (cause : Cause) (s : State) : Result := .next (s.setRun (.faulted cause))

/-- The code R152 assigns to a cause. -/
def Cause.code : Cause → Nat
  | .divideByZero => 1
  | .inexactResult => 2
  | .stackOverflow => 3
  | .stackUnderflow => 4
  | .memAddressOutOfRange => 5
  | .immediateOutOfRange => 6
  | .jumpTargetNegative => 7

end Sys2Proof.Machine
end

