-- ==== Sys2Proof/Machine/Flags.lean ====
section
/-! DEFINITION. The sign-flag-update logic (44_arithmetic.md R112). -/

namespace Sys2Proof.Machine

/-- All three flags from the saturated result `r` of an ADD or a SUB: Z <- (r = 0), U <- (r < 0), O <- (r > 0). -/
def State.setFlags (s : State) (r : Int) : State :=
  { s with z := decide (r = 0), u := decide (r < 0), o := decide (r > 0) }

end Sys2Proof.Machine
end

