-- ==== Sys2Proof/Machine/Arithmetic.lean ====
section
/-! DEFINITION. The arithmetic family ADD, SUB, MUL, DIV, EXP (44_arithmetic.md R113 to R121). Every result is computed exactly
and saturated once (R122). -/

namespace Sys2Proof.Machine

/-- Saturate the exact result, write it to C, recompute the flags, complete (R113, R114). -/
def finishWithFlags (cfg : Config) (exact : Int) (s : State) : Result :=
  complete ((s.writeReg .C (sat cfg exact)).setFlags (sat cfg exact))

/-- Saturate the exact result, write it to C, leave the flags, complete (R115, R116, R120). -/
def finish (cfg : Config) (exact : Int) (s : State) : Result := complete (s.writeReg .C (sat cfg exact))

/-- ADD (R113). -/
def execAddWith (cfg : Config) (s : State) : Result := finishWithFlags cfg (s.readReg .A + s.readReg .B) s

/-- ADD under the default parameters (R113). -/
def execAdd (s : State) : Result := execAddWith Config.default s

/-- SUB (R114). -/
def execSubWith (cfg : Config) (s : State) : Result := finishWithFlags cfg (s.readReg .A - s.readReg .B) s

/-- SUB under the default parameters (R114). -/
def execSub (s : State) : Result := execSubWith Config.default s

/-- MUL (R115). -/
def execMulWith (cfg : Config) (s : State) : Result := finish cfg (s.readReg .A * s.readReg .B) s

/-- MUL under the default parameters (R115). -/
def execMul (s : State) : Result := execMulWith Config.default s

/-- DIV_ZERO_POLICY (R118): the fault, or the signed extreme (VAL_MAX for A = 0). -/
def applyDivZero (cfg : Config) (s : State) : Result :=
  match cfg.divZero with
  | .fault => raiseFault .divideByZero s
  | .saturate => complete (s.writeReg .C (if s.readReg .A ≥ 0 then cfg.valMax else cfg.valMin))

/-- INEXACT_POLICY (R119) for the exact result `q`, which is no integer: the fault, or the rounded result saturated. -/
def applyInexact (cfg : Config) (q : Rat) (s : State) : Result :=
  match cfg.inexact with
  | .fault => raiseFault .inexactResult s
  | .round f => finish cfg (f q) s

/-- DIV (R116): the policy for B = 0, the exact quotient where B divides A, the policy for the rest. -/
def execDivWith (cfg : Config) (s : State) : Result :=
  let x := s.readReg .A
  let y := s.readReg .B
  if y = 0 then applyDivZero cfg s
  else if x % y = 0 then finish cfg (x / y) s
  else applyInexact cfg ((x : Rat) / (y : Rat)) s

/-- DIV under the default policies (R116). -/
def execDiv (s : State) : Result := execDivWith Config.default s

/-- EXP (R120): the exact power for B >= 0 (0 ^ 0 = 1, decision D12; log 8); for B < 0 the exact result is
1 / A ^ |B|, an integer only for A = 1 and A = -1. -/
def execExpWith (cfg : Config) (s : State) : Result :=
  let x := s.readReg .A
  let y := s.readReg .B
  if 0 ≤ y then finish cfg (x ^ y.toNat) s
  else if x = 1 then complete (s.writeReg .C 1)
  else if x = -1 then complete (s.writeReg .C (if y % 2 = 0 then 1 else -1))
  else if x = 0 then applyDivZero cfg s
  else applyInexact cfg (1 / (x : Rat) ^ (-y).toNat) s

/-- EXP under the default policies (R120). -/
def execExp (s : State) : Result := execExpWith Config.default s

/-- Saturated step-by-step power: one multiplication and one saturation per unit of the exponent (R121). -/
def satPowSteps (cfg : Config) (x : Int) : Nat → Int
  | 0 => 1
  | n + 1 => sat cfg (satPowSteps cfg x n * x)

/-- The form of EXP "without big numbers" of R121: no meaning uses it; it is stated equal to `sat cfg (x ^ n)`
under legal parameters. -/
def satPowFast (cfg : Config) (x : Int) (n : Nat) : Int :=
  if 2 ≤ x.natAbs ∧ 16 ≤ n then (if 0 < x ∨ n % 2 = 0 then cfg.valMax else cfg.valMin)
  else if x.natAbs ≤ 1 then (if n = 0 then 1 else if x = -1 ∧ n % 2 = 0 then 1 else x)
  else satPowSteps cfg x n

end Sys2Proof.Machine
end

