-- ==== Sys2Proof/Machine/Operands.lean ====
section
/-! DEFINITION. The operand forms: a register value used as a program-memory address (42_memory_transfer.md R100), as a jump
target (45_control_flow.md R136), and LDM's immediate (30_encoding.md R53). Every other operand is a whole register. -/

namespace Sys2Proof.Machine

/-- The cell a register value addresses: "the integer value of the address register, used directly"; none where it is
not a valid address 0 .. MEM_TOP (R42, R100). -/
def memAddress (cfg : Config) (v : Int) : Option Nat :=
  if 0 ≤ v ∧ v ≤ (cfg.memTop : Int) then some v.toNat else none

/-- The address a taken jump goes to; none where it is negative. A target above MEM_TOP is taken (R136). -/
def jumpTarget (v : Int) : Option Nat :=
  if 0 ≤ v then some v.toNat else none

/-- LDM's operand from its immediate cell: "no extension, scaling or shifting", one clamp (R53, R95). -/
def immediate (cfg : Config) (cell : Int) : Int := sat cfg cell

end Sys2Proof.Machine
end

