-- ==== Sys2Proof/Machine/ControlFlow.lean ====
section
/-! DEFINITION. The control flow family JMP, JMZ, JMU, JMO, HLT, NOP (45_control_flow.md R130 to R138). -/

namespace Sys2Proof.Machine

/-- A jump that is taken: its target is C; a negative target faults (R132, R136). -/
def jumpToC (s : State) : Result :=
  match jumpTarget (s.readReg .C) with
  | none => raiseFault .jumpTargetNegative s
  | some t => takeJump t s

/-- A jump gated on a flag: not taken, it completes and C is not examined (R133 to R136). -/
def jumpToCIf (flag : Bool) (s : State) : Result :=
  if flag then jumpToC s else complete s

/-- JMP (R132). -/
def execJmp (s : State) : Result := jumpToC s

/-- JMZ (R133). -/
def execJmz (s : State) : Result := jumpToCIf s.z s

/-- JMU (R134). -/
def execJmu (s : State) : Result := jumpToCIf s.u s

/-- JMO (R135). -/
def execJmo (s : State) : Result := jumpToCIf s.o s

/-- HLT (R137). -/
def execHlt (s : State) : Result := halt s

/-- NOP (R138). -/
def execNop (s : State) : Result := complete s

end Sys2Proof.Machine
end

