-- ==== Sys2Proof/Machine/MemoryTransfer.lean ====
section
/-! DEFINITION. The memory transfer family MST, MLD (42_memory_transfer.md R100 to R102). -/

namespace Sys2Proof.Machine

/-- MST (R101): Mem[x[C]] <- x[B], raw. -/
def execMstWith (cfg : Config) (s : State) : Result :=
  match memAddress cfg (s.readReg .C) with
  | none => raiseFault .memAddressOutOfRange s
  | some addr => complete (s.memWrite cfg addr (s.readReg .B))

/-- MST under the default parameters (R101). -/
def execMst (s : State) : Result := execMstWith Config.default s

/-- MLD (R102): x[C] <- Mem[x[B]], raw. -/
def execMldWith (cfg : Config) (s : State) : Result :=
  match memAddress cfg (s.readReg .B) with
  | none => raiseFault .memAddressOutOfRange s
  | some addr => complete (s.writeReg .C (s.memRead cfg addr))

/-- MLD under the default parameters (R102). -/
def execMld (s : State) : Result := execMldWith Config.default s

end Sys2Proof.Machine
end

