-- ==== Sys2Proof/Machine/RegisterTransfer.lean ====
section
/-! DEFINITION. The register transfer family LDA, LDB, STA, STB, LDM (41_register_transfer.md R90 to R95). -/

namespace Sys2Proof.Machine

/-- Copy one register into another, raw, and complete (R90). -/
def copyReg (src dst : Reg) (s : State) : Result := complete (s.writeReg dst (s.readReg src))

/-- LDA: C <- A (R91). -/
def execLda (s : State) : Result := copyReg .A .C s

/-- LDB: C <- B (R92). -/
def execLdb (s : State) : Result := copyReg .B .C s

/-- STA: A <- C (R93). -/
def execSta (s : State) : Result := copyReg .C .A s

/-- STB: B <- C (R94). -/
def execStb (s : State) : Result := copyReg .C .B s

/-- LDM (R95): the fault if the immediate cell would lie beyond MEM_TOP, otherwise C <- sat(immediate) and pc <- pc + 2.
The immediate cell's content is the instruction's operand, read by the fetch (Machine/Engine.lean). -/
def execLdmWith (cfg : Config) (imm : Int) (s : State) : Result :=
  if s.pc + 1 > cfg.memTop then raiseFault .immediateOutOfRange s
  else completeBy 2 (s.writeReg .C (immediate cfg imm))

/-- LDM under the default parameters (R95). -/
def execLdm (imm : Int) (s : State) : Result := execLdmWith Config.default imm s

end Sys2Proof.Machine
end

