-- ==== Sys2Proof/Machine/Stack.lean ====
section
/-! DEFINITION. The stack family PSH, POP (43_stack.md R105 to R107). -/

namespace Sys2Proof.Machine

/-- PSH (R106): Stack[sp] <- x[C], then sp <- sp + 1. -/
def execPshWith (cfg : Config) (s : State) : Result :=
  if s.sp > cfg.stackTop then raiseFault .stackOverflow s
  else complete ((s.stackWrite cfg s.sp (s.readReg .C)).setSp (s.sp + 1))

/-- PSH under the default parameters (R106). -/
def execPsh (s : State) : Result := execPshWith Config.default s

/-- POP (R107): sp <- sp - 1, then x[C] <- Stack[sp]; the cell keeps its value. -/
def execPopWith (cfg : Config) (s : State) : Result :=
  if s.sp = 0 then raiseFault .stackUnderflow s
  else complete ((s.setSp (s.sp - 1)).writeReg .C (s.stackRead cfg (s.sp - 1)))

/-- POP under the default parameters (R107). -/
def execPop (s : State) : Result := execPopWith Config.default s

end Sys2Proof.Machine
end

