-- ==== Sys2Proof/Machine/Dispatch.lean ====
section
/-! DEFINITION. The dispatch of 40_execution_engine.md R74: one arm per instruction. -/

namespace Sys2Proof.Machine

def exec (i : Instr) (s : State) : Host.Outcome State Fault Refusal :=
  match i with
  | .nop => Sys2Proof.Machine.execNop s
  | .lda => Sys2Proof.Machine.execLda s
  | .ldb => Sys2Proof.Machine.execLdb s
  | .sta => Sys2Proof.Machine.execSta s
  | .stb => Sys2Proof.Machine.execStb s
  | .ldm imm => Sys2Proof.Machine.execLdm imm s
  | .mst => Sys2Proof.Machine.execMst s
  | .mld => Sys2Proof.Machine.execMld s
  | .psh => Sys2Proof.Machine.execPsh s
  | .pop => Sys2Proof.Machine.execPop s
  | .add => Sys2Proof.Machine.execAdd s
  | .sub => Sys2Proof.Machine.execSub s
  | .mul => Sys2Proof.Machine.execMul s
  | .div => Sys2Proof.Machine.execDiv s
  | .exp => Sys2Proof.Machine.execExp s
  | .jmp => Sys2Proof.Machine.execJmp s
  | .jmz => Sys2Proof.Machine.execJmz s
  | .jmu => Sys2Proof.Machine.execJmu s
  | .jmo => Sys2Proof.Machine.execJmo s
  | .hlt => Sys2Proof.Machine.execHlt s

end Sys2Proof.Machine
end

