-- ==== Sys2Proof/Machine/Engine.lean ====
section
/-! DEFINITION. The Execution Engine (40_execution_engine.md R70 to R83): the guard, the fetch, and one step, for any parameters. -/

namespace Sys2Proof.Machine

/-- The dispatch for any parameters (R3, R74); `exec` is this one at the defaults. -/
def execWith (cfg : Config) (i : Instr) (s : State) : Result :=
  match i with
  | .ldm imm => execLdmWith cfg imm s
  | .mst => execMstWith cfg s
  | .mld => execMldWith cfg s
  | .psh => execPshWith cfg s
  | .pop => execPopWith cfg s
  | .add => execAddWith cfg s
  | .sub => execSubWith cfg s
  | .mul => execMulWith cfg s
  | .div => execDivWith cfg s
  | .exp => execExpWith cfg s
  | .nop => execNop s
  | .lda => execLda s
  | .ldb => execLdb s
  | .sta => execSta s
  | .stb => execStb s
  | .jmp => execJmp s
  | .jmz => execJmz s
  | .jmu => execJmu s
  | .jmo => execJmo s
  | .hlt => execHlt s

/-- The fetch (R72): the cell at pc, clamped, and after it the cell at pc + 1, clamped (R95), where there is one. -/
def fetchCells (cfg : Config) (s : State) : List Int :=
  if s.pc + 1 > cfg.memTop then [sat cfg (s.memRead cfg s.pc)]
  else [sat cfg (s.memRead cfg s.pc), sat cfg (s.memRead cfg (s.pc + 1))]

/-- Decode and execute the fetched cells (R73, R74). The one thing the fetched cells can lack is LDM's immediate,
which is R95's fault (log 9). The other two refusals of the decoder cannot arise, because the cell at pc is there and
is clamped (`decode_fetchCells`, Laws/Engine.lean); a cell that matches no opcode would be a NOP (R56). -/
def runFetched (cfg : Config) (ex : Instr → State → Result) (s : State) : Result :=
  match decode cfg (fetchCells cfg s) with
  | .ok (i, _) => ex i s
  | .error .immediateMissing => raiseFault .immediateOutOfRange s
  | .error .notAValue => complete s
  | .error .noCell => complete s

/-- One step (R75), with `ex` as the dispatch. It is defined only when run = Running (R70, R80): in a terminal state it
answers the fault of that name (log 5). -/
def engineStep (cfg : Config) (ex : Instr → State → Result) (s : State) : Result :=
  match s.run with
  | .running => if s.pc > cfg.memTop then .next (s.setRun .outOfRange) else runFetched cfg ex s
  | .halted => .fault .halted
  | .outOfRange => .fault .outOfRange
  | .faulted cause => .fault (.faulted cause)

/-- One step for any parameters. -/
def stepWith (cfg : Config) (s : State) : Result := engineStep cfg (execWith cfg) s

/-- "The engine then applies Step repeatedly while run = Running" (70_reset_and_hazards.md R175), for at most `fuel`
steps (R81: a run need not end). -/
def repeatStep (stp : State → Result) : Nat → State → State
  | 0, s => s
  | fuel + 1, s =>
    match stp s with
    | .next t => repeatStep stp fuel t
    | .fault _ => s
    | .refused _ => s

/-- `Load` of one cell (R174): performed for a valid address and a value of V, otherwise not performed. -/
def placeCell (cfg : Config) (s : State) (addr : Int) (v : Int) : State :=
  match memAddress cfg addr with
  | some a => if InV cfg v then s.memWrite cfg a v else s
  | none => s

/-- Place the cells of a numbered instruction word at pc: the first cell, and the second where the first is LDM's opcode. -/
def placeTableWord (cfg : Config) (s : State) (nbits w : Nat) : State :=
  match cellsOfTableWord nbits w with
  | w0 :: w1 :: _ =>
    let s0 := placeCell cfg s s.pc w0
    if (decodeOpcode cfg w0).length = 2 then placeCell cfg s0 (s.pc + 1 : Nat) w1 else s0
  | _ => s

end Sys2Proof.Machine
end

