-- ==== Sys2Proof/Machine/Step.lean ====
section
/-! DEFINITION. The step of the machine under the default parameters (40_execution_engine.md R75). -/

namespace Sys2Proof.Machine

/-- One step: guard, fetch, decode, execute (R75). -/
def step (s : State) : Host.Outcome State Fault Refusal := engineStep Config.default exec s

/-- `s` with the numbered instruction word stored where the next step fetches, as the host's Load would place it
(70_reset_and_hazards.md R174; log 14). -/
def State.withFetchWord (s : State) (nbits w : Nat) : State := placeTableWord Config.default s nbits w

end Sys2Proof.Machine
end

