-- ==== Sys2Proof/Machine/Session.lean ====
section
/-! DEFINITION. The host interface (00_scope.md R8; 70_reset_and_hazards.md R170 to R176): Reset, Load, Start, the run, Observe,
as a protocol over State. The phase is the host's, not state of the machine (10_state.md R17; log 15). -/

namespace Sys2Proof.Machine

/-- Where the protocol of R173 stands: loading between Reset and Start, then started. -/
inductive Phase where
  | loading
  | started
  deriving DecidableEq, Repr

/-- A machine and the phase its host is in. -/
structure Session where
  phase : Phase
  machine : State
  deriving DecidableEq, Repr

/-- What a host operation answers: the session after it, or a refusal by name. -/
abbrev SessionResult := Host.Outcome Session Fault Refusal

/-- Reset (R170, R171): may be applied in any state; nothing survives it. -/
def Session.reset (cfg : Config) (_ : Session) : Session := ⟨.loading, State.resetWith cfg⟩

/-- Load(addr, v) (R174): one program-memory cell, before Start, at a valid address, with a value of V; refused
otherwise. -/
def Session.load (cfg : Config) (h : Session) (addr v : Int) : SessionResult :=
  match h.phase with
  | .started => .refused .loadAfterStart
  | .loading =>
    match memAddress cfg addr with
    | none => .refused .loadAddressInvalid
    | some a => if InV cfg v then .next { h with machine := h.machine.memWrite cfg a v } else .refused .loadValueInvalid

/-- Several Loads in order, stopping at the first refused one (R173, R174). -/
def Session.loadAll (cfg : Config) (h : Session) : List (Int × Int) → SessionResult
  | [] => .next h
  | (addr, v) :: loads =>
    match h.load cfg addr v with
    | .next h' => Session.loadAll cfg h' loads
    | .fault r => .fault r
    | .refused r => .refused r

/-- Start (R175). -/
def Session.start (h : Session) : SessionResult :=
  match h.phase with
  | .started => .refused .alreadyStarted
  | .loading => .next { h with phase := .started }

/-- Reset, the given Loads, Start: the launch of R173 and R175. -/
def Session.launch (cfg : Config) (h : Session) (loads : List (Int × Int)) : SessionResult :=
  match (h.reset cfg).loadAll cfg loads with
  | .next h' => h'.start
  | .fault r => .fault r
  | .refused r => .refused r

/-- One step of the engine, after Start (R173, R175). -/
def Session.advance (cfg : Config) (h : Session) : SessionResult :=
  match h.phase with
  | .loading => .refused .notStarted
  | .started =>
    match stepWith cfg h.machine with
    | .next t => .next { h with machine := t }
    | .fault r => .fault r
    | .refused r => .refused r

/-- Observe (R176): the whole final state, every item of which the host may read; only when run is Halted, OutOfRange
or Faulted. It changes nothing: it answers a state and no session. -/
def Session.observe (h : Session) : Result :=
  match h.machine.run with
  | .running => .refused .observeWhileRunning
  | .halted | .outOfRange | .faulted _ => .next h.machine

/-- At most `fuel` steps from `s`, stopping where run leaves Running (R81, R175). -/
def runFor (fuel : Nat) (s : State) : State := repeatStep step fuel s

end Sys2Proof.Machine
end

