-- ==== Sys2Proof/Safety.lean ====
section
/-! DEFINITION. The terms in which claims about runs are stated: the invariant of the state, the fault table, the next-pc table,
a run's end, and a run in which no jump is taken. No definition here is used by the machine. -/

namespace Sys2Proof.Machine

/-- Every register holds a value of V (10_state.md R12). -/
abbrev State.RegsInRange (cfg : Config) (s : State) : Prop := InV cfg s.a ∧ InV cfg s.b ∧ InV cfg s.c

/-- Every listed cell has a valid address and a value of V (R18 to R20). -/
abbrev Memory.InRange (cfg : Config) (top : Nat) (m : Memory) : Prop := ∀ e ∈ m, e.1 ≤ top ∧ InV cfg e.2

/-- No two flags are true together (R13, R112). -/
abbrev State.FlagsExclusive (s : State) : Prop :=
  ¬(s.z = true ∧ s.u = true) ∧ ¬(s.z = true ∧ s.o = true) ∧ ¬(s.u = true ∧ s.o = true)

/-- Exactly one flag is true, as after every ADD and SUB (R112). -/
abbrev State.ExactlyOneFlag (s : State) : Prop :=
  s.FlagsExclusive ∧ (s.z = true ∨ s.u = true ∨ s.o = true)

/-- What the prose promises of every state of a run: values in V (R12, R20), exclusive flags (R13), pc at most
MEM_TOP + 1 or the highest jump target (R14), sp at most STACK_TOP + 1 (R15), both memories canonical and within their
address space (R18, R19; log 2). -/
abbrev State.Inv (cfg : Config) (s : State) : Prop :=
  s.RegsInRange cfg ∧ s.FlagsExclusive ∧ s.pc ≤ max (cfg.memTop + 1) cfg.valMax.toNat ∧ s.sp ≤ cfg.stackTop + 1 ∧
  Memory.wf cfg.fill s.mem = true ∧ Memory.wf cfg.fill s.stack = true ∧
  Memory.InRange cfg cfg.memTop s.mem ∧ Memory.InRange cfg cfg.stackTop s.stack

/-- The table of 60_exceptions.md R152 under the default policies: the cause, if any, that instruction `i` raises in
state `s`. -/
def faultCause (cfg : Config) (i : Instr) (s : State) : Option Cause :=
  match i with
  | .div => if s.b = 0 then some .divideByZero else if s.b ∣ s.a then none else some .inexactResult
  | .exp =>
    if s.b < 0 ∧ s.a = 0 then some .divideByZero
    else if s.b < 0 ∧ 2 ≤ s.a.natAbs then some .inexactResult else none
  | .psh => if s.sp > cfg.stackTop then some .stackOverflow else none
  | .pop => if s.sp = 0 then some .stackUnderflow else none
  | .mst => if s.c < 0 ∨ s.c > (cfg.memTop : Int) then some .memAddressOutOfRange else none
  | .mld => if s.b < 0 ∨ s.b > (cfg.memTop : Int) then some .memAddressOutOfRange else none
  | .ldm _ => if s.pc + 1 > cfg.memTop then some .immediateOutOfRange else none
  | .jmp => if s.c < 0 then some .jumpTargetNegative else none
  | .jmz => if s.z = true ∧ s.c < 0 then some .jumpTargetNegative else none
  | .jmu => if s.u = true ∧ s.c < 0 then some .jumpTargetNegative else none
  | .jmo => if s.o = true ∧ s.c < 0 then some .jumpTargetNegative else none
  | .add | .sub | .mul | .lda | .ldb | .sta | .stb | .hlt | .nop => none

/-- The column "next pc" of 30_encoding.md R59 for an instruction that does not fault. -/
def nextPc (i : Instr) (s : State) : Nat :=
  match i with
  | .ldm _ => s.pc + 2
  | .hlt => s.pc
  | .jmp => s.c.toNat
  | .jmz => if s.z then s.c.toNat else s.pc + 1
  | .jmu => if s.u then s.c.toNat else s.pc + 1
  | .jmo => if s.o then s.c.toNat else s.pc + 1
  | .nop | .lda | .ldb | .sta | .stb | .mst | .mld | .psh | .pop
  | .add | .sub | .mul | .div | .exp => s.pc + 1

/-- The instruction is a jump whose condition holds in `s` (R130, R133 to R135). -/
def jumpTaken (i : Instr) (s : State) : Bool :=
  match i with
  | .jmp => true
  | .jmz => s.z
  | .jmu => s.u
  | .jmo => s.o
  | .nop | .lda | .ldb | .sta | .stb | .ldm _ | .mst | .mld | .psh | .pop
  | .add | .sub | .mul | .div | .exp | .hlt => false

/-- The instruction the next step of `s` executes, if it executes one (R71 to R74). -/
def nextInstr (s : State) : Option Instr :=
  if s.run = .running ∧ s.pc ≤ Config.default.memTop then
    match decode Config.default (fetchCells Config.default s) with
    | .ok (i, _) => some i
    | .error _ => none
  else none

/-- The next step of `s` takes a jump. -/
def stepTakesJump (s : State) : Bool :=
  match nextInstr s with
  | some i => jumpTaken i s
  | none => false

/-- A safe run: within `fuel` steps it does not end in Faulted (R153: what a claim about a program proves). -/
def SafeRun (fuel : Nat) (s : State) : Prop :=
  ∀ n, n ≤ fuel → ∀ cause, (runFor n s).run ≠ .faulted cause

end Sys2Proof.Machine
end

