-- ==== Sys2Proof/Certificates/Slice0/Obligations.lean ====
section
/-! DEFINITION. The statements about this model, for the provers. `Config.default` holds the default parameters of 00_scope.md R3
(log 3); a statement for every `cfg` holds for every setting of the open parameters. Where a docstring says "the
spec's decision D<n>", the clause rests on 92_eei_decisions.md and the log entry named, not on the source. -/

open Sys2Proof Sys2Proof.Machine

/-! ### Encoding -/

/-- Decoding the cells of any well-formed instruction gives it back and leaves the cells after it, for every legal
opcode map and every immediate (30_encoding.md sections 1, 3 and 5). -/
def Obligations.DecodeOfEncodeIsTheInstruction : Prop :=
  ∀ cfg : Config, cfg.Legal → ∀ i : Instr, i.wellFormed cfg = true → ∀ rest : List Int,
    decode cfg (encode cfg i ++ rest) = .ok (i, rest)

/-- The other direction: what decodes is well-formed and either encodes back to exactly the cells it came from, or is
the NOP of a value that is no opcode, one cell long (30_encoding.md sections 3 and 4). -/
def Obligations.DecodedCellsEncodeBackOrAreUnassigned : Prop :=
  ∀ cfg : Config, cfg.Legal → ∀ (w : Int) (cs : List Int) (i : Instr) (rest : List Int),
    decode cfg (w :: cs) = .ok (i, rest) →
    i.wellFormed cfg = true ∧
    (encode cfg i ++ rest = w :: cs ∨ (i = .nop ∧ rest = cs ∧ ∀ m, (cfg.opc m : Int) ≠ w))

/-- Some words of the default opcode map (the spec's decision D5, log 3), whole cells, no masking (D7, log 12). -/
def Obligations.DefaultOpcodeWordsDecode : Prop :=
  decodeTableWord 17 0x01 = some .lda ∧ decodeTableWord 17 0x06 = some .mst ∧ decodeTableWord 17 0x08 = some .psh ∧
  decodeTableWord 17 0x0A = some .add ∧ decodeTableWord 17 0x10 = some .jmz ∧ decodeTableWord 17 0x13 = some .hlt ∧
  decodeTableWord 34 (0x05 + 2 ^ 17 * 0x1FED4) = some (.ldm (-300)) ∧
  decodeTableWord 17 0x14 = some .nop ∧ decodeTableWord 17 0x105 = some .nop ∧ decodeTableWord 17 0x10000 = none

/-- Every value of V survives its 17-bit pattern, and exactly one pattern, that of -65536, stands for no value
(10_state.md section 1; the width is the spec's decision D1, log 1). -/
def Obligations.CellPatternsStandForTheValues : Prop :=
  ∀ cfg : Config, cfg.Legal →
    (∀ v : Int, InV cfg v → cellOfPattern (patternOfCell v) = v) ∧
    ∀ p : Pattern, InV cfg (cellOfPattern p) ↔ p ≠ 0x10000#17

/-! ### Reset and the invariant -/

/-- R170: what Reset leaves, for every legal setting of the parameters and from every session; every cell of both
memories reads OPC(NOP). -/
def Obligations.ResetLeavesTheStateOfTheSpec : Prop :=
  ∀ cfg : Config, cfg.Legal → ∀ h : Session,
    let s := (h.reset cfg).machine
    s.a = 0 ∧ s.b = 0 ∧ s.c = 0 ∧ s.z = false ∧ s.u = false ∧ s.o = false ∧
    s.pc = cfg.resetVector ∧ s.sp = 0 ∧ s.run = .running ∧
    (∀ a, s.memRead cfg a = cfg.opc .nop) ∧ (∀ a, s.stackRead cfg a = cfg.opc .nop) ∧
    State.reset = State.resetWith Config.default

/-- The reset state meets the invariant, for every legal setting of the parameters. -/
def Obligations.ResetMeetsTheInvariant : Prop :=
  (∀ cfg : Config, cfg.Legal → (State.resetWith cfg).Inv cfg) ∧ State.reset.Inv Config.default

/-- Every step keeps the invariant, from every state that meets it: registers and cells in V, flags exclusive, pc and sp
in their ranges, both memories canonical and within their address spaces. For the machine at its default parameters, and
for every legal setting and both policies. -/
def Obligations.EveryStepKeepsTheInvariant : Prop :=
  (∀ s t : State, s.Inv Config.default → step s = .next t → t.Inv Config.default) ∧
  ∀ cfg : Config, cfg.Legal → ∀ s t : State, s.Inv cfg → stepWith cfg s = .next t → t.Inv cfg

/-- After any launch whose Loads are all accepted, at every step of the run, every register and every cell of both
memories holds a value of V (10_state.md sections 1 and 6; Load's precondition is the spec's decision D24, log 15). -/
def Obligations.NoRegisterOrCellEverLeavesTheRange : Prop :=
  ∀ (h h' : Session) (loads : List (Int × Int)), h.launch Config.default loads = .next h' → ∀ n : Nat,
    let t := runFor n h'.machine
    InV Config.default t.a ∧ InV Config.default t.b ∧ InV Config.default t.c ∧
    (∀ a, InV Config.default (t.memRead Config.default a)) ∧ ∀ a, InV Config.default (t.stackRead Config.default a)

/-- Two canonical memories that read alike at every address are the same list (log 2). -/
def Obligations.CanonicalMemoriesThatReadAlikeAreEqual : Prop :=
  ∀ (fill : Int) (m m' : Memory), Memory.wf fill m = true → Memory.wf fill m' = true →
    (∀ a, Memory.read fill m a = Memory.read fill m' a) → m = m'

/-! ### The engine -/

/-- Where the fetched cells decode to a well-formed instruction, a step is that instruction and nothing around it. -/
def Obligations.StepRunsTheDecodedInstruction : Prop :=
  ∀ (s : State) (i : Instr) (rest : List Int), s.run = .running → s.pc ≤ Config.default.memTop →
    decode Config.default (fetchCells Config.default s) = .ok (i, rest) → i.wellFormed Config.default = true →
    step s = exec i s

/-- Where program memory holds the cells of a well-formed instruction from pc on, a step is that instruction, for all
20 instructions, every immediate and every legal setting of the parameters. -/
def Obligations.EncodedInstructionAtPcRuns : Prop :=
  ∀ cfg : Config, cfg.Legal → ∀ (i : Instr) (s : State), i.wellFormed cfg = true → s.run = .running →
    s.pc + (encode cfg i).length ≤ cfg.memTop + 1 →
    (∀ (k : Nat) (v : Int), (encode cfg i)[k]? = some v → s.memRead cfg (s.pc + k) = v) →
    stepWith cfg s = execWith cfg i s

/-- A numbered instruction word placed by `withFetchWord` is what the next step runs (log 13, log 14). -/
def Obligations.PlacedTableWordRunsNext : Prop :=
  ∀ (s : State) (nbits w : Nat) (i : Instr), s.run = .running →
    s.pc + i.mnemonic.length ≤ Config.default.memTop + 1 → decodeTableWord nbits w = some i →
    step (s.withFetchWord nbits w) = exec i (s.withFetchWord nbits w)

/-- pc above MEM_TOP ends the run in OutOfRange before any fetch, and nothing else changes (40_execution_engine.md section
2). The third clause, that under the default parameters the only such pc is 65535, is R71's sentence marked [derived:
from rule R14], and rests on the default MEM_TOP (the spec's decision D2; DESIGN CHOICE, log 3). -/
def Obligations.GuardEndsTheRunPastTheTop : Prop :=
  (∀ (cfg : Config) (s : State), s.run = .running → s.pc > cfg.memTop →
    stepWith cfg s = .next { s with run := .outOfRange }) ∧
  (∀ s : State, s.run = .running → s.pc > Config.default.memTop → step s = .next { s with run := .outOfRange }) ∧
  ∀ s : State, s.Inv Config.default → s.pc > Config.default.memTop → s.pc = 65535

/-- A step is defined exactly when run = Running, and a machine that is not Running stays as it is (the terminal
states are absorbing by the spec's decision D22, log 5). -/
def Obligations.AStepIsDefinedExactlyWhenRunning : Prop :=
  ∀ s : State, ((∃ t, step s = .next t) ↔ s.run = .running) ∧ (s.run ≠ .running → ∀ n, runFor n s = s)

/-- The three ways a run ends (40_execution_engine.md section 4): a step leaves Running only by executing HLT, by finding
pc above MEM_TOP, or by the fault the table of causes gives for the instruction it executes (an LDM in the last cell
included); in all three nothing but `run` changes. The fault state is the spec's decision D9 (log 4). -/
def Obligations.ARunEndsInThreeWays : Prop :=
  ∀ s t : State, step s = .next t →
    t.run = .running ∨
    (t = { s with run := .halted } ∧ nextInstr s = some .hlt) ∨
    (t = { s with run := .outOfRange } ∧ s.pc > Config.default.memTop) ∨
    ∃ cause, t = { s with run := .faulted cause } ∧ s.pc ≤ Config.default.memTop ∧
      ((∃ i, nextInstr s = some i ∧ faultCause Config.default i s = some cause) ∨
       (cause = .immediateOutOfRange ∧ s.pc = Config.default.memTop ∧
        s.memRead Config.default s.pc = Config.default.opc .ldm))

/-- R56: the 20 assigned values decode to their instructions, every other value, negative values and values above 255
included, to NOP; and a cell holding such a value executes as NOP: one cell long, nothing but pc changes. For every
legal opcode map. -/
def Obligations.UnassignedCellActsAsNop : Prop :=
  ∀ cfg : Config, cfg.Legal →
    (∀ m, decodeOpcode cfg (cfg.opc m) = m) ∧
    (∀ w : Int, (∀ m, (cfg.opc m : Int) ≠ w) → decodeOpcode cfg w = .nop) ∧
    ∀ s : State, s.run = .running → s.pc ≤ cfg.memTop → (∀ m, (cfg.opc m : Int) ≠ s.memRead cfg s.pc) →
      stepWith cfg s = .next { s with pc := s.pc + 1 }

/-- Run-off: a machine whose cells from pc to the top hold nothing but NOPs ends in OutOfRange after one step per cell
and one for the guard, with pc = MEM_TOP + 1 and nothing else changed. -/
def Obligations.NopsToTheTopRunOffIntoOutOfRange : Prop :=
  ∀ s : State, s.run = .running → s.pc ≤ Config.default.memTop + 1 →
    (∀ a, s.pc ≤ a → a ≤ Config.default.memTop →
      ∀ m, m ≠ .nop → (Config.default.opc m : Int) ≠ s.memRead Config.default a) →
    runFor (Config.default.memTop + 2 - s.pc) s =
      { s with pc := Config.default.memTop + 1, run := .outOfRange }

/-- A run in which no step takes a jump ends: within MEM_TOP + 2 - pc steps run is no longer Running. -/
def Obligations.ARunWithoutTakenJumpsEnds : Prop :=
  ∀ s : State, s.pc ≤ Config.default.memTop + 1 → (∀ k, stepTakesJump (runFor k s) = false) →
    (runFor (Config.default.memTop + 2 - s.pc) s).run ≠ .running

/-- Termination is not guaranteed: a JMP whose target is its own address leaves the state as it is for ever. -/
def Obligations.AJumpToItselfNeverEnds : Prop :=
  ∀ s : State, s.run = .running → s.pc ≤ Config.default.memTop →
    s.memRead Config.default s.pc = Config.default.opc .jmp → s.c = s.pc → ∀ n, runFor n s = s

/-! ### Whole-machine rules: what no instruction does -/

/-- The fault table, and that faults are precise: an instruction whose condition holds enters Faulted(cause) and changes
nothing else; every other instruction answers a next state and leaves `run` alone, but for HLT. No instruction ends in a
fault or a refusal of the model. (The causes are the spec's decision D9, log 4.) -/
def Obligations.FaultsFollowTheTableAndArePrecise : Prop :=
  ∀ (i : Instr) (s : State),
    (∀ cause, faultCause Config.default i s = some cause → exec i s = .next { s with run := .faulted cause }) ∧
    (faultCause Config.default i s = none →
      ∃ t, exec i s = .next t ∧ (i ≠ .hlt → t.run = s.run))

/-- The next pc of every instruction that does not fault (the table of 30_encoding.md section 6). -/
def Obligations.PcFollowsTheControlTable : Prop :=
  ∀ (i : Instr) (s : State), faultCause Config.default i s = none →
    ∃ t, exec i s = .next t ∧ t.pc = nextPc i s

/-- Which instructions write which register: A only STA, B only STB, C only the ten the table of 10_state.md section 1
lists; so no instruction writes two registers. -/
def Obligations.RegistersAreWrittenOnlyByTheirInstructions : Prop :=
  ∀ (i : Instr) (s t : State), exec i s = .next t →
    (i ≠ .sta → t.a = s.a) ∧ (i ≠ .stb → t.b = s.b) ∧
    (i.mnemonic ∉ [Mnemonic.lda, .ldb, .ldm, .mld, .pop, .add, .sub, .mul, .div, .exp] → t.c = s.c)

/-- Which instructions write which memory, and sp: program memory only MST, at the address its operand form gives; the
stack only PSH, at the old sp; sp only PSH and POP. Every other cell reads as before. -/
def Obligations.MemoriesAndSpAreWrittenOnlyByTheirInstructions : Prop :=
  ∀ (i : Instr) (s t : State), exec i s = .next t →
    (i ≠ .mst → ∀ x, t.memRead Config.default x = s.memRead Config.default x) ∧
    (i = .mst → ∀ a, memAddress Config.default (s.readReg .C) = some a →
      ∀ x, x ≠ a → t.memRead Config.default x = s.memRead Config.default x) ∧
    (i ≠ .psh → ∀ x, t.stackRead Config.default x = s.stackRead Config.default x) ∧
    (i = .psh → ∀ x, x ≠ s.sp → t.stackRead Config.default x = s.stackRead Config.default x) ∧
    (i ≠ .psh → i ≠ .pop → t.sp = s.sp)

/-- ADD and SUB write all three flags from the saturated result, exactly one of them true; that they equally classify the
unsaturated result is R112's sentence marked [derived: from rule R110], an inference of the spec; under every other instruction, and when an instruction faults, the flags keep their values. -/
def Obligations.FlagsFollowTheSaturatedSumOrDifferenceOnly : Prop :=
  (∀ s : State, ∃ t, exec .add s = .next t ∧ t.c = sat Config.default (s.a + s.b) ∧ t.ExactlyOneFlag ∧
    (t.z = true ↔ t.c = 0) ∧ (t.u = true ↔ t.c < 0) ∧ (t.o = true ↔ t.c > 0) ∧
    (t.z = true ↔ s.a + s.b = 0) ∧ (t.u = true ↔ s.a + s.b < 0) ∧ (t.o = true ↔ s.a + s.b > 0)) ∧
  (∀ s : State, ∃ t, exec .sub s = .next t ∧ t.c = sat Config.default (s.a - s.b) ∧ t.ExactlyOneFlag ∧
    (t.z = true ↔ t.c = 0) ∧ (t.u = true ↔ t.c < 0) ∧ (t.o = true ↔ t.c > 0) ∧
    (t.z = true ↔ s.a - s.b = 0) ∧ (t.u = true ↔ s.a - s.b < 0) ∧ (t.o = true ↔ s.a - s.b > 0)) ∧
  ∀ (i : Instr) (s t : State), exec i s = .next t → (i ≠ .add ∧ i ≠ .sub) ∨ t.run ≠ s.run →
    t.z = s.z ∧ t.u = s.u ∧ t.o = s.o

/-- Once exactly one flag is true it stays so at every step; before that, a step that executes neither ADD nor SUB keeps
all three flags, so flags that are all false stay so (10_state.md section 2). -/
def Obligations.ExactlyOneFlagIsTrueForEver : Prop :=
  (∀ s t : State, step s = .next t → s.ExactlyOneFlag → t.ExactlyOneFlag) ∧
  (∀ s t : State, step s = .next t → nextInstr s = some .add ∨ nextInstr s = some .sub → t.ExactlyOneFlag) ∧
  ∀ s t : State, step s = .next t → nextInstr s ≠ some .add → nextInstr s ≠ some .sub →
    t.z = s.z ∧ t.u = s.u ∧ t.o = s.o

/-! ### Register transfer -/

/-- R91: LDA copies A to C; one cell; nothing but C and pc changes. -/
def Obligations.LdaCopiesAToC : Prop :=
  (∀ cfg : Config, encode cfg .lda = [(cfg.opc .lda : Int)]) ∧
  ∀ s : State, exec .lda s = .next { s with c := s.a, pc := s.pc + 1 }

/-- R92: LDB copies B to C; one cell; nothing but C and pc changes. -/
def Obligations.LdbCopiesBToC : Prop :=
  (∀ cfg : Config, encode cfg .ldb = [(cfg.opc .ldb : Int)]) ∧
  ∀ s : State, exec .ldb s = .next { s with c := s.b, pc := s.pc + 1 }

/-- R93: STA copies C to A; one cell; nothing but A and pc changes. -/
def Obligations.StaCopiesCToA : Prop :=
  (∀ cfg : Config, encode cfg .sta = [(cfg.opc .sta : Int)]) ∧
  ∀ s : State, exec .sta s = .next { s with a := s.c, pc := s.pc + 1 }

/-- R94: STB copies C to B; one cell; nothing but B and pc changes. -/
def Obligations.StbCopiesCToB : Prop :=
  (∀ cfg : Config, encode cfg .stb = [(cfg.opc .stb : Int)]) ∧
  ∀ s : State, exec .stb s = .next { s with b := s.c, pc := s.pc + 1 }

/-- LDM loads its clamped immediate and moves pc by 2; in the last cell it faults and changes nothing else (the fault
is the spec's decision D15, log 9). -/
def Obligations.LdmLoadsItsImmediate : Prop :=
  ∀ (imm : Int) (s : State),
    (s.pc + 1 ≤ Config.default.memTop → exec (.ldm imm) s = .next { s with c := sat Config.default imm, pc := s.pc + 2 }) ∧
    (s.pc + 1 > Config.default.memTop → exec (.ldm imm) s = .next { s with run := .faulted .immediateOutOfRange })

/-- R77, as a step: an LDM opcode at pc loads the clamped value of the next cell and moves pc past both, so that the
immediate cell is never the next one fetched. -/
def Obligations.LdmStepTakesTheNextCell : Prop :=
  ∀ cfg : Config, cfg.Legal → ∀ s : State, s.run = .running → s.pc + 1 ≤ cfg.memTop →
    s.memRead cfg s.pc = cfg.opc .ldm →
    stepWith cfg s = .next { s with c := sat cfg (s.memRead cfg (s.pc + 1)), pc := s.pc + 2 }

/-- An LDM opcode in the last cell: the step faults, whatever lies where its immediate would be (the spec's decision
D15, log 9). -/
def Obligations.LdmInTheLastCellFaults : Prop :=
  ∀ s : State, s.run = .running → s.pc = Config.default.memTop →
    s.memRead Config.default s.pc = Config.default.opc .ldm →
    step s = .next { s with run := .faulted .immediateOutOfRange }

/-! ### Memory transfer and stack -/

/-- MST stores B, raw, in the cell its operand form computes from C, and changes no other cell; an address outside
program memory faults (the fault is the spec's decision D14, log 10). -/
def Obligations.MstStoresBAtTheAddressInC : Prop :=
  (∀ s : State, 0 ≤ s.c → s.c ≤ Config.default.memTop →
    memAddress Config.default (s.readReg .C) = some s.c.toNat ∧
    ∃ t, exec .mst s = .next t ∧ t = { s with pc := s.pc + 1, mem := t.mem } ∧
      t.memRead Config.default s.c.toNat = s.b ∧
      ∀ x, x ≠ s.c.toNat → t.memRead Config.default x = s.memRead Config.default x) ∧
  ∀ s : State, s.c < 0 ∨ s.c > Config.default.memTop →
    exec .mst s = .next { s with run := .faulted .memAddressOutOfRange }

/-- MLD loads the cell B addresses into C, raw; an address outside program memory faults (decision D14, log 10). -/
def Obligations.MldLoadsTheCellBAddresses : Prop :=
  (∀ (s : State) (addr : Nat), s.b = addr → addr ≤ Config.default.memTop →
    exec .mld s = .next { s with c := s.memRead Config.default addr, pc := s.pc + 1 }) ∧
  ∀ s : State, s.b < 0 ∨ s.b > Config.default.memTop →
    exec .mld s = .next { s with run := .faulted .memAddressOutOfRange }

/-- PSH stores C at the old sp and advances sp; no other stack cell changes; a full stack faults (the fault is the
spec's decision D13, log 10). -/
def Obligations.PshStoresCAtSpAndAdvancesSp : Prop :=
  (∀ s : State, s.sp ≤ Config.default.stackTop →
    ∃ t, exec .psh s = .next t ∧ t = { s with pc := s.pc + 1, sp := s.sp + 1, stack := t.stack } ∧
      t.stackRead Config.default s.sp = s.c ∧
      ∀ x, x ≠ s.sp → t.stackRead Config.default x = s.stackRead Config.default x) ∧
  ∀ s : State, s.sp > Config.default.stackTop →
    exec .psh s = .next { s with run := .faulted .stackOverflow }

/-- POP retreats sp and loads the cell there into C; the stack is unchanged, the popped cell included; an empty stack
faults (the fault is the spec's decision D13, log 10). -/
def Obligations.PopRetreatsSpAndLoadsC : Prop :=
  (∀ (s : State) (n : Nat), s.sp = n + 1 →
    exec .pop s = .next { s with c := s.stackRead Config.default n, sp := n, pc := s.pc + 1 }) ∧
  ∀ s : State, s.sp = 0 → exec .pop s = .next { s with run := .faulted .stackUnderflow }

/-- The push-pop law (43_stack.md), as a law of runs. A PSH with C = v and sp = n, any number of steps none of which executes PSH or POP, then a
POP: C = v and sp = n again, and the cell Stack[n] still holds v. And values are popped in the reverse order of pushing,
R108's sentence marked [derived: from rules R106, R107]: after that PSH, however many PSH and POP run while sp stays above n, the POP that brings sp back to n gives v. -/
def Obligations.PushThenPopRestoresCAndSp : Prop :=
  ∀ (s : State) (k : Nat), nextInstr s = some .psh → s.sp ≤ Config.default.stackTop →
    let s1 := runFor 1 s
    nextInstr (runFor k s1) = some .pop →
    ((∀ j, j < k → nextInstr (runFor j s1) ≠ some .psh ∧ nextInstr (runFor j s1) ≠ some .pop) ∨
     ((∀ j, j ≤ k → s.sp < (runFor j s1).sp) ∧ (runFor k s1).sp = s.sp + 1)) →
    ∃ t, step (runFor k s1) = .next t ∧ t.c = s.c ∧ t.sp = s.sp ∧ t.stackRead Config.default s.sp = s.c

/-- A store into the next cell is what the next step fetches (20_memory.md section 6): where MST writes the opcode of a one-cell
instruction `i` into the cell after it, the next step is `i`. -/
def Obligations.AStoreIsSeenByTheNextFetch : Prop :=
  ∀ (s : State) (i : Instr), nextInstr s = some .mst → s.pc + 1 ≤ Config.default.memTop → s.c = (s.pc + 1 : Nat) →
    encode Config.default i = [s.b] →
    ∃ t, step s = .next t ∧ t.pc = s.pc + 1 ∧ step t = exec i t

/-! ### Arithmetic -/

/-- The saturating-range function, case by case, its range V, and the properties that R110 marks [derived: from the
definition], an inference of the spec (44_arithmetic.md section 1); for every legal setting of the parameters. -/
def Obligations.SatClampsToTheRange : Prop :=
  ∀ cfg : Config, cfg.Legal →
    (∀ n : Int, n > 65535 → sat cfg n = 65535) ∧ (∀ n : Int, n < -65535 → sat cfg n = -65535) ∧
    (∀ n : Int, -65535 ≤ n → n ≤ 65535 → sat cfg n = n) ∧ (∀ n : Int, InV cfg (sat cfg n)) ∧
    (∀ m n : Int, m ≤ n → sat cfg m ≤ sat cfg n) ∧ (∀ n : Int, sat cfg (-n) = -sat cfg n) ∧
    (∀ n : Int, sat cfg n = 0 ↔ n = 0) ∧ (∀ n : Int, (0 < sat cfg n ↔ 0 < n) ∧ (sat cfg n < 0 ↔ n < 0)) ∧
    ∀ n : Int, sat cfg (sat cfg n) = sat cfg n

/-- R113: ADD; one cell; the exact sum saturated once, the flags from the result; nothing else but pc changes. -/
def Obligations.AddWritesTheSaturatedSum : Prop :=
  (∀ cfg : Config, encode cfg .add = [(cfg.opc .add : Int)]) ∧
  ∀ s : State, exec .add s = .next
    { s with
      c := sat Config.default (s.a + s.b)
      z := decide (sat Config.default (s.a + s.b) = 0)
      u := decide (sat Config.default (s.a + s.b) < 0)
      o := decide (sat Config.default (s.a + s.b) > 0)
      pc := s.pc + 1 }

/-- SUB, A minus B, saturated (44_arithmetic.md section 3). That it is the machine's comparison for all values (Z means
A = B, U means A < B, O means A > B, of the operands themselves) is R114's sentence marked [derived: from rule R112]. -/
def Obligations.SubWritesTheSaturatedDifferenceAndCompares : Prop :=
  (∀ cfg : Config, encode cfg .sub = [(cfg.opc .sub : Int)]) ∧
  ∀ s : State, exec .sub s = .next
    { s with
      c := sat Config.default (s.a - s.b)
      z := decide (s.a = s.b)
      u := decide (s.a < s.b)
      o := decide (s.a > s.b)
      pc := s.pc + 1 }

/-- R115: MUL; one cell; the exact product saturated once, the flags untouched. -/
def Obligations.MulWritesTheSaturatedProduct : Prop :=
  (∀ cfg : Config, encode cfg .mul = [(cfg.opc .mul : Int)]) ∧
  ∀ s : State, exec .mul s = .next { s with c := sat Config.default (s.a * s.b), pc := s.pc + 1 }

/-- DIV under the default policies: whenever some integer q has q * B = A, C becomes sat(q), which is q for a dividend
in V; B = 0 and a B that does not divide A fault (the spec's decisions D10 and D11, log 6 and log 7). -/
def Obligations.DivWritesTheExactQuotientOrFaults : Prop :=
  (∀ (s : State) (q : Int), s.b ≠ 0 → q * s.b = s.a →
    exec .div s = .next { s with c := sat Config.default q, pc := s.pc + 1 } ∧ (InV Config.default s.a → sat Config.default q = q)) ∧
  (∀ s : State, s.b = 0 → exec .div s = .next { s with run := .faulted .divideByZero }) ∧
  ∀ s : State, s.b ≠ 0 → (∀ q : Int, q * s.b ≠ s.a) →
    exec .div s = .next { s with run := .faulted .inexactResult }

/-- EXP under the default policies, case by case: the saturated exact power for B >= 0 (0 to the power 0 is 1), the
exact inverse for A = 1 and A = -1, a fault for the rest (the spec's decisions D10 to D12, log 6 to log 8). -/
def Obligations.ExpWritesTheExactPowerOrFaults : Prop :=
  (∀ (s : State) (n : Nat), s.b = n → exec .exp s = .next { s with c := sat Config.default (s.a ^ n), pc := s.pc + 1 }) ∧
  (∀ s : State, s.b < 0 → s.a = 1 → exec .exp s = .next { s with c := 1, pc := s.pc + 1 }) ∧
  (∀ s : State, s.b < 0 → s.a = -1 → Even s.b → exec .exp s = .next { s with c := 1, pc := s.pc + 1 }) ∧
  (∀ s : State, s.b < 0 → s.a = -1 → Odd s.b → exec .exp s = .next { s with c := -1, pc := s.pc + 1 }) ∧
  (∀ s : State, s.b < 0 → s.a = 0 → exec .exp s = .next { s with run := .faulted .divideByZero }) ∧
  ∀ s : State, s.b < 0 → 2 ≤ s.a.natAbs → exec .exp s = .next { s with run := .faulted .inexactResult }

/-- The form of EXP without big numbers, which saturates after every multiplication, equals one saturation of the exact
power, for every base and every exponent. -/
def Obligations.PowerBySaturatedStepsEqualsTheSaturatedPower : Prop :=
  ∀ cfg : Config, cfg.Legal → ∀ (x : Int) (n : Nat), satPowFast cfg x n = sat cfg (x ^ n)

/-- The other settings of the two policies: `saturate` writes a signed extreme (65535 and -65535 in every legal
setting), `round f` the saturated rounding of the
exact rational result, in DIV and in EXP (the spec's decisions D10 and D11, log 6 and log 7). -/
def Obligations.TheOtherPoliciesCompleteDivAndExp : Prop :=
  (∀ (cfg : Config) (s : State), cfg.divZero = .saturate → s.b = 0 →
    execWith cfg .div s = .next { s with c := if 0 ≤ s.a then cfg.valMax else cfg.valMin, pc := s.pc + 1 }) ∧
  (∀ (cfg : Config) (s : State), cfg.divZero = .saturate → s.a = 0 → s.b < 0 →
    execWith cfg .exp s = .next { s with c := cfg.valMax, pc := s.pc + 1 }) ∧
  (∀ (cfg : Config) (s : State) (f : Rat → Int), cfg.inexact = .round f → s.b ≠ 0 → (∀ q : Int, q * s.b ≠ s.a) →
    execWith cfg .div s = .next { s with c := sat cfg (f ((s.a : Rat) / s.b)), pc := s.pc + 1 }) ∧
  ∀ (cfg : Config) (s : State) (f : Rat → Int), cfg.inexact = .round f → s.b < 0 → 2 ≤ s.a.natAbs →
    execWith cfg .exp s = .next { s with c := sat cfg (f (1 / (s.a : Rat) ^ s.b.natAbs)), pc := s.pc + 1 }

/-- The named rounding functions meet the condition on a rounding function, and round quotients toward minus infinity
and toward zero (44_arithmetic.md, the table of INEXACT_POLICY; the spec's decision D11, log 7). -/
def Obligations.FloorAndTruncAreLegalRoundings : Prop :=
  RoundingLegal roundFloor ∧ RoundingLegal roundTrunc ∧
  ∀ a b : Int, b ≠ 0 →
    roundFloor ((a : Rat) / b) = a.fdiv b ∧ roundTrunc ((a : Rat) / b) = a.tdiv b

/-! ### Control flow -/

/-- R79: a taken jump, of each of the four kinds, sets pc to C and changes nothing else; and where a well-formed
instruction is stored at the target, the step after it is that instruction. -/
def Obligations.ATakenJumpGoesToC : Prop :=
  ∀ s : State, 0 ≤ s.c →
    exec .jmp s = .next { s with pc := s.c.toNat } ∧
    (s.z = true → exec .jmz s = .next { s with pc := s.c.toNat }) ∧
    (s.u = true → exec .jmu s = .next { s with pc := s.c.toNat }) ∧
    (s.o = true → exec .jmo s = .next { s with pc := s.c.toNat }) ∧
    ∀ i : Instr, i.wellFormed Config.default = true → s.run = .running →
      s.c.toNat + (encode Config.default i).length ≤ Config.default.memTop + 1 →
      (∀ (k : Nat) (v : Int), (encode Config.default i)[k]? = some v →
        s.memRead Config.default (s.c.toNat + k) = v) →
      step { s with pc := s.c.toNat } = exec i { s with pc := s.c.toNat }

/-- A conditional jump whose flag is false advances pc by 1 and changes nothing else, whatever C holds. -/
def Obligations.AConditionalJumpNotTakenOnlyAdvancesPc : Prop :=
  ∀ s : State,
    (s.z = false → exec .jmz s = .next { s with pc := s.pc + 1 }) ∧
    (s.u = false → exec .jmu s = .next { s with pc := s.pc + 1 }) ∧
    (s.o = false → exec .jmo s = .next { s with pc := s.pc + 1 })

/-- Jump targets outside program memory (the spec's decision D16, log 10): a negative target of a taken jump faults at
the jump; a target above MEM_TOP is taken, and the next step ends the run in OutOfRange. -/
def Obligations.JumpTargetsOutsideMemory : Prop :=
  (∀ (s : State) (i : Instr), jumpTaken i s = true → s.c < 0 →
    exec i s = .next { s with run := .faulted .jumpTargetNegative }) ∧
  ∀ (s : State) (i : Instr), jumpTaken i s = true → s.run = .running → s.c > Config.default.memTop →
    ∃ t, exec i s = .next t ∧ t = { s with pc := s.c.toNat } ∧ step t = .next { t with run := .outOfRange }

/-- HLT; one cell; run becomes Halted and nothing else changes, pc included (45_control_flow.md section 2). Halted is
terminal, in the sense that the executor makes no step from it: the spec's decision D22, and the model's choice of what
a step answers there (DESIGN CHOICE, log 5). -/
def Obligations.HltHaltsAndKeepsPc : Prop :=
  (∀ cfg : Config, encode cfg .hlt = [(cfg.opc .hlt : Int)]) ∧
  (∀ s : State, exec .hlt s = .next { s with run := .halted }) ∧
  ∀ s : State, s.run = .halted → ∀ n, runFor n s = s

/-- R138: NOP; one cell; nothing but pc changes; and every value that is no opcode decodes to it. -/
def Obligations.NopOnlyAdvancesPc : Prop :=
  (∀ cfg : Config, encode cfg .nop = [(cfg.opc .nop : Int)]) ∧
  (∀ cfg : Config, cfg.Legal → ∀ w : Int, (∀ m, (cfg.opc m : Int) ≠ w) → decodeOpcode cfg w = .nop) ∧
  ∀ s : State, exec .nop s = .next { s with pc := s.pc + 1 }

/-! ### The host interface (log 15) -/

/-- A launch (the spec's decisions D17 and D24): Reset, any Loads at valid addresses with values of V, Start. The machine is the reset state but for
program memory, where each loaded address holds the last value loaded there and every other cell OPC(NOP). -/
def Obligations.TheLaunchStateIsResetPlusTheLoads : Prop :=
  ∀ (cfg : Config) (h : Session) (loads : List (Int × Int)),
    (∀ p ∈ loads, 0 ≤ p.1 ∧ p.1 ≤ cfg.memTop ∧ InV cfg p.2) →
    ∃ h', h.launch cfg loads = .next h' ∧ h'.phase = .started ∧
      h'.machine = { State.resetWith cfg with mem := h'.machine.mem } ∧
      ∀ a : Nat, h'.machine.memRead cfg a =
        ((loads.reverse.find? fun p => decide (p.1 = (a : Int))).map Prod.snd).getD (cfg.opc .nop)

/-- What the host may not do is refused by name: a Load after Start, outside program memory or outside V, an Observe of a
running machine (the spec's decisions D17 and D24); a second Start and a step before Start, where the refusal is the
MODEL's choice (DESIGN CHOICE, log 15). An Observe of an ended run answers the whole state. -/
def Obligations.HostOperationsOutOfOrderAreRefused : Prop :=
  ∀ (cfg : Config) (m : State) (addr v : Int),
    (Session.mk .started m).load cfg addr v = .refused .loadAfterStart ∧
    (addr < 0 ∨ addr > cfg.memTop → (Session.mk .loading m).load cfg addr v = .refused .loadAddressInvalid) ∧
    (0 ≤ addr → addr ≤ cfg.memTop → ¬InV cfg v → (Session.mk .loading m).load cfg addr v = .refused .loadValueInvalid) ∧
    (Session.mk .started m).start = .refused .alreadyStarted ∧
    (Session.mk .loading m).advance cfg = .refused .notStarted ∧
    (∀ p, m.run = .running → (Session.mk p m).observe = .refused .observeWhileRunning) ∧
    ∀ p, m.run ≠ .running → (Session.mk p m).observe = .next m
end

