-- ==== Sys2Proof/Laws/Decode.lean ====
section
/-! SUPPORT. What the opcode decoder does, for any parameters, and that the default parameters are legal. -/

namespace Sys2Proof

theorem Mnemonic.mem_all (m : Mnemonic) : m ∈ Mnemonic.all := by cases m <;> decide

/-- The default parameters meet the constraints of 00_scope.md R3. -/
theorem Config.default_legal : Config.default.Legal where
  valMax_eq := rfl
  valMin_eq := rfl
  nregs_eq := rfl
  spReset_eq := rfl
  resetVector_le := by decide
  opc_injective := by intro m n; cases m <;> cases n <;> decide
  opc_byte := by intro m; cases m <;> decide
  rounding := by intro f h; cases h

@[simp] theorem Config.fill_default : Config.default.fill = 0 := rfl
@[simp] theorem Config.valMax_default : Config.default.valMax = 65535 := rfl
@[simp] theorem Config.valMin_default : Config.default.valMin = -65535 := rfl

/-- V in numbers (00_scope.md R4). -/
theorem Config.Legal.inV_iff {cfg : Config} (h : cfg.Legal) {v : Int} : InV cfg v ↔ -65535 ≤ v ∧ v ≤ 65535 := by
  rw [InV, h.valMax_eq, h.valMin_eq]

theorem Config.Legal.opc_inV {cfg : Config} (h : cfg.Legal) (m : Mnemonic) : InV cfg (cfg.opc m) := by
  have := h.opc_byte m
  rw [h.inV_iff]; omega

theorem Config.Legal.fill_inV {cfg : Config} (h : cfg.Legal) : InV cfg cfg.fill := h.opc_inV .nop

/-- An assigned value decodes to its mnemonic (30_encoding.md R55). -/
theorem decodeOpcode_opc {cfg : Config} (h : cfg.Legal) (m : Mnemonic) : decodeOpcode cfg (cfg.opc m) = m := by
  unfold decodeOpcode
  cases hf : Mnemonic.all.find? fun n => decide ((cfg.opc n : Int) = cfg.opc m) with
  | none => simpa using (List.find?_eq_none.mp hf) m m.mem_all
  | some n =>
    have := List.find?_some hf
    simp only [decide_eq_true_eq, Nat.cast_inj] at this
    simpa using h.opc_injective n m this

/-- A value that is no opcode decodes as NOP (R55, R56). -/
theorem decodeOpcode_unassigned {cfg : Config} {w : Int} (h : ∀ m, (cfg.opc m : Int) ≠ w) :
    decodeOpcode cfg w = .nop := by
  unfold decodeOpcode
  have hf : Mnemonic.all.find? (fun n => decide ((cfg.opc n : Int) = w)) = none := by
    rw [List.find?_eq_none]; intro m _; simpa using h m
  simp [hf]

/-- A value that decodes to another mnemonic than NOP is that mnemonic's opcode. -/
theorem opc_of_decodeOpcode {cfg : Config} {w : Int} {m : Mnemonic} (h : decodeOpcode cfg w = m) (hm : m ≠ .nop) :
    (cfg.opc m : Int) = w := by
  unfold decodeOpcode at h
  cases hf : Mnemonic.all.find? fun n => decide ((cfg.opc n : Int) = w) with
  | none => rw [hf] at h; exact absurd h.symm hm
  | some n =>
    rw [hf] at h
    simp only [Option.getD_some] at h
    simpa [h] using List.find?_some hf

@[simp] theorem decode_nil (cfg : Config) : decode cfg [] = .error .noCell := rfl

theorem decode_cons {cfg : Config} {w : Int} (h : InV cfg w) (rest : List Int) :
    decode cfg (w :: rest) = assemble cfg (decodeOpcode cfg w) rest := by simp [decode, h]

/-- Every mnemonic but LDM is a whole instruction, and leaves the rest of the cells (R51). -/
theorem assemble_one_cell {cfg : Config} {m : Mnemonic} (h : m ≠ .ldm) (rest : List Int) :
    ∃ i, i.mnemonic = m ∧ i.wellFormed cfg = true ∧ assemble cfg m rest = .ok (i, rest) := by
  cases m <;> first | exact absurd rfl h | exact ⟨_, rfl, rfl, rfl⟩

theorem assemble_ldm {cfg : Config} {v : Int} (h : InV cfg v) (rest : List Int) :
    assemble cfg .ldm (v :: rest) = .ok (.ldm v, rest) := by simp [assemble, h]

end Sys2Proof
end

