-- ==== Sys2Proof/Laws/State.lean ====
section
/-! SUPPORT. One lemma per field of State per named update, so that no proof unfolds a record update. -/

namespace Sys2Proof.Machine

section fields
variable (s : State)

/-! ### memWrite -/

@[simp] theorem State.memWrite_a (cfg : Config) (x : Nat) (v : Int) : (s.memWrite cfg x v).a = s.a := rfl
@[simp] theorem State.memWrite_b (cfg : Config) (x : Nat) (v : Int) : (s.memWrite cfg x v).b = s.b := rfl
@[simp] theorem State.memWrite_c (cfg : Config) (x : Nat) (v : Int) : (s.memWrite cfg x v).c = s.c := rfl
@[simp] theorem State.memWrite_z (cfg : Config) (x : Nat) (v : Int) : (s.memWrite cfg x v).z = s.z := rfl
@[simp] theorem State.memWrite_u (cfg : Config) (x : Nat) (v : Int) : (s.memWrite cfg x v).u = s.u := rfl
@[simp] theorem State.memWrite_o (cfg : Config) (x : Nat) (v : Int) : (s.memWrite cfg x v).o = s.o := rfl
@[simp] theorem State.memWrite_pc (cfg : Config) (x : Nat) (v : Int) : (s.memWrite cfg x v).pc = s.pc := rfl
@[simp] theorem State.memWrite_sp (cfg : Config) (x : Nat) (v : Int) : (s.memWrite cfg x v).sp = s.sp := rfl
@[simp] theorem State.memWrite_run (cfg : Config) (x : Nat) (v : Int) : (s.memWrite cfg x v).run = s.run := rfl
@[simp] theorem State.memWrite_mem (cfg : Config) (x : Nat) (v : Int) : (s.memWrite cfg x v).mem = Memory.write cfg.fill s.mem x v := rfl
@[simp] theorem State.memWrite_stack (cfg : Config) (x : Nat) (v : Int) : (s.memWrite cfg x v).stack = s.stack := rfl

/-! ### stackWrite -/

@[simp] theorem State.stackWrite_a (cfg : Config) (x : Nat) (v : Int) : (s.stackWrite cfg x v).a = s.a := rfl
@[simp] theorem State.stackWrite_b (cfg : Config) (x : Nat) (v : Int) : (s.stackWrite cfg x v).b = s.b := rfl
@[simp] theorem State.stackWrite_c (cfg : Config) (x : Nat) (v : Int) : (s.stackWrite cfg x v).c = s.c := rfl
@[simp] theorem State.stackWrite_z (cfg : Config) (x : Nat) (v : Int) : (s.stackWrite cfg x v).z = s.z := rfl
@[simp] theorem State.stackWrite_u (cfg : Config) (x : Nat) (v : Int) : (s.stackWrite cfg x v).u = s.u := rfl
@[simp] theorem State.stackWrite_o (cfg : Config) (x : Nat) (v : Int) : (s.stackWrite cfg x v).o = s.o := rfl
@[simp] theorem State.stackWrite_pc (cfg : Config) (x : Nat) (v : Int) : (s.stackWrite cfg x v).pc = s.pc := rfl
@[simp] theorem State.stackWrite_sp (cfg : Config) (x : Nat) (v : Int) : (s.stackWrite cfg x v).sp = s.sp := rfl
@[simp] theorem State.stackWrite_run (cfg : Config) (x : Nat) (v : Int) : (s.stackWrite cfg x v).run = s.run := rfl
@[simp] theorem State.stackWrite_mem (cfg : Config) (x : Nat) (v : Int) : (s.stackWrite cfg x v).mem = s.mem := rfl
@[simp] theorem State.stackWrite_stack (cfg : Config) (x : Nat) (v : Int) : (s.stackWrite cfg x v).stack = Memory.write cfg.fill s.stack x v := rfl

/-! ### setPc -/

@[simp] theorem State.setPc_a (t : Nat) : (s.setPc t).a = s.a := rfl
@[simp] theorem State.setPc_b (t : Nat) : (s.setPc t).b = s.b := rfl
@[simp] theorem State.setPc_c (t : Nat) : (s.setPc t).c = s.c := rfl
@[simp] theorem State.setPc_z (t : Nat) : (s.setPc t).z = s.z := rfl
@[simp] theorem State.setPc_u (t : Nat) : (s.setPc t).u = s.u := rfl
@[simp] theorem State.setPc_o (t : Nat) : (s.setPc t).o = s.o := rfl
@[simp] theorem State.setPc_pc (t : Nat) : (s.setPc t).pc = t := rfl
@[simp] theorem State.setPc_sp (t : Nat) : (s.setPc t).sp = s.sp := rfl
@[simp] theorem State.setPc_run (t : Nat) : (s.setPc t).run = s.run := rfl
@[simp] theorem State.setPc_mem (t : Nat) : (s.setPc t).mem = s.mem := rfl
@[simp] theorem State.setPc_stack (t : Nat) : (s.setPc t).stack = s.stack := rfl

/-! ### setSp -/

@[simp] theorem State.setSp_a (t : Nat) : (s.setSp t).a = s.a := rfl
@[simp] theorem State.setSp_b (t : Nat) : (s.setSp t).b = s.b := rfl
@[simp] theorem State.setSp_c (t : Nat) : (s.setSp t).c = s.c := rfl
@[simp] theorem State.setSp_z (t : Nat) : (s.setSp t).z = s.z := rfl
@[simp] theorem State.setSp_u (t : Nat) : (s.setSp t).u = s.u := rfl
@[simp] theorem State.setSp_o (t : Nat) : (s.setSp t).o = s.o := rfl
@[simp] theorem State.setSp_pc (t : Nat) : (s.setSp t).pc = s.pc := rfl
@[simp] theorem State.setSp_sp (t : Nat) : (s.setSp t).sp = t := rfl
@[simp] theorem State.setSp_run (t : Nat) : (s.setSp t).run = s.run := rfl
@[simp] theorem State.setSp_mem (t : Nat) : (s.setSp t).mem = s.mem := rfl
@[simp] theorem State.setSp_stack (t : Nat) : (s.setSp t).stack = s.stack := rfl

/-! ### setRun -/

@[simp] theorem State.setRun_a (r : Run) : (s.setRun r).a = s.a := rfl
@[simp] theorem State.setRun_b (r : Run) : (s.setRun r).b = s.b := rfl
@[simp] theorem State.setRun_c (r : Run) : (s.setRun r).c = s.c := rfl
@[simp] theorem State.setRun_z (r : Run) : (s.setRun r).z = s.z := rfl
@[simp] theorem State.setRun_u (r : Run) : (s.setRun r).u = s.u := rfl
@[simp] theorem State.setRun_o (r : Run) : (s.setRun r).o = s.o := rfl
@[simp] theorem State.setRun_pc (r : Run) : (s.setRun r).pc = s.pc := rfl
@[simp] theorem State.setRun_sp (r : Run) : (s.setRun r).sp = s.sp := rfl
@[simp] theorem State.setRun_run (r : Run) : (s.setRun r).run = r := rfl
@[simp] theorem State.setRun_mem (r : Run) : (s.setRun r).mem = s.mem := rfl
@[simp] theorem State.setRun_stack (r : Run) : (s.setRun r).stack = s.stack := rfl

/-! ### setFlags -/

@[simp] theorem State.setFlags_a (r : Int) : (s.setFlags r).a = s.a := rfl
@[simp] theorem State.setFlags_b (r : Int) : (s.setFlags r).b = s.b := rfl
@[simp] theorem State.setFlags_c (r : Int) : (s.setFlags r).c = s.c := rfl
@[simp] theorem State.setFlags_z (r : Int) : (s.setFlags r).z = decide (r = 0) := rfl
@[simp] theorem State.setFlags_u (r : Int) : (s.setFlags r).u = decide (r < 0) := rfl
@[simp] theorem State.setFlags_o (r : Int) : (s.setFlags r).o = decide (r > 0) := rfl
@[simp] theorem State.setFlags_pc (r : Int) : (s.setFlags r).pc = s.pc := rfl
@[simp] theorem State.setFlags_sp (r : Int) : (s.setFlags r).sp = s.sp := rfl
@[simp] theorem State.setFlags_run (r : Int) : (s.setFlags r).run = s.run := rfl
@[simp] theorem State.setFlags_mem (r : Int) : (s.setFlags r).mem = s.mem := rfl
@[simp] theorem State.setFlags_stack (r : Int) : (s.setFlags r).stack = s.stack := rfl

/-! ### writeReg -/

@[simp] theorem State.writeReg_A_a (v : Int) : (s.writeReg .A v).a = v := rfl
@[simp] theorem State.writeReg_A_b (v : Int) : (s.writeReg .A v).b = s.b := rfl
@[simp] theorem State.writeReg_A_c (v : Int) : (s.writeReg .A v).c = s.c := rfl
@[simp] theorem State.writeReg_A_z (v : Int) : (s.writeReg .A v).z = s.z := rfl
@[simp] theorem State.writeReg_A_u (v : Int) : (s.writeReg .A v).u = s.u := rfl
@[simp] theorem State.writeReg_A_o (v : Int) : (s.writeReg .A v).o = s.o := rfl
@[simp] theorem State.writeReg_A_pc (v : Int) : (s.writeReg .A v).pc = s.pc := rfl
@[simp] theorem State.writeReg_A_sp (v : Int) : (s.writeReg .A v).sp = s.sp := rfl
@[simp] theorem State.writeReg_A_run (v : Int) : (s.writeReg .A v).run = s.run := rfl
@[simp] theorem State.writeReg_A_mem (v : Int) : (s.writeReg .A v).mem = s.mem := rfl
@[simp] theorem State.writeReg_A_stack (v : Int) : (s.writeReg .A v).stack = s.stack := rfl

@[simp] theorem State.writeReg_B_a (v : Int) : (s.writeReg .B v).a = s.a := rfl
@[simp] theorem State.writeReg_B_b (v : Int) : (s.writeReg .B v).b = v := rfl
@[simp] theorem State.writeReg_B_c (v : Int) : (s.writeReg .B v).c = s.c := rfl
@[simp] theorem State.writeReg_B_z (v : Int) : (s.writeReg .B v).z = s.z := rfl
@[simp] theorem State.writeReg_B_u (v : Int) : (s.writeReg .B v).u = s.u := rfl
@[simp] theorem State.writeReg_B_o (v : Int) : (s.writeReg .B v).o = s.o := rfl
@[simp] theorem State.writeReg_B_pc (v : Int) : (s.writeReg .B v).pc = s.pc := rfl
@[simp] theorem State.writeReg_B_sp (v : Int) : (s.writeReg .B v).sp = s.sp := rfl
@[simp] theorem State.writeReg_B_run (v : Int) : (s.writeReg .B v).run = s.run := rfl
@[simp] theorem State.writeReg_B_mem (v : Int) : (s.writeReg .B v).mem = s.mem := rfl
@[simp] theorem State.writeReg_B_stack (v : Int) : (s.writeReg .B v).stack = s.stack := rfl

@[simp] theorem State.writeReg_C_a (v : Int) : (s.writeReg .C v).a = s.a := rfl
@[simp] theorem State.writeReg_C_b (v : Int) : (s.writeReg .C v).b = s.b := rfl
@[simp] theorem State.writeReg_C_c (v : Int) : (s.writeReg .C v).c = v := rfl
@[simp] theorem State.writeReg_C_z (v : Int) : (s.writeReg .C v).z = s.z := rfl
@[simp] theorem State.writeReg_C_u (v : Int) : (s.writeReg .C v).u = s.u := rfl
@[simp] theorem State.writeReg_C_o (v : Int) : (s.writeReg .C v).o = s.o := rfl
@[simp] theorem State.writeReg_C_pc (v : Int) : (s.writeReg .C v).pc = s.pc := rfl
@[simp] theorem State.writeReg_C_sp (v : Int) : (s.writeReg .C v).sp = s.sp := rfl
@[simp] theorem State.writeReg_C_run (v : Int) : (s.writeReg .C v).run = s.run := rfl
@[simp] theorem State.writeReg_C_mem (v : Int) : (s.writeReg .C v).mem = s.mem := rfl
@[simp] theorem State.writeReg_C_stack (v : Int) : (s.writeReg .C v).stack = s.stack := rfl

@[simp] theorem State.readReg_A : s.readReg .A = s.a := rfl
@[simp] theorem State.readReg_B : s.readReg .B = s.b := rfl
@[simp] theorem State.readReg_C : s.readReg .C = s.c := rfl

end fields

end Sys2Proof.Machine
end

