-- ==== Sys2Proof/Laws/Ops.lean ====
section
/-! SUPPORT. What the shared operations do: the read and write laws of memory and its canonical form, the range of `sat`,
the operand forms, and the ways an instruction ends. -/

namespace Sys2Proof.Machine

/-! ### Reading after writing -/

theorem Memory.read_erase (fill : Int) (m : Memory) (a a' : Nat) :
    Memory.read fill (Memory.erase m a) a' = if a' = a then fill else Memory.read fill m a' := by
  induction m with
  | nil => simp [Memory.erase, Memory.read]
  | cons e m ih =>
    obtain ⟨k, w⟩ := e
    by_cases hk : k = a
    · rw [Memory.erase, if_pos hk, ih]
      by_cases ha : a' = a
      · rw [if_pos ha, if_pos ha]
      · rw [if_neg ha, if_neg ha, Memory.read, if_neg (by rw [hk]; exact Ne.symm ha)]
    · rw [Memory.erase, if_neg hk, Memory.read, ih]
      by_cases ha : a' = a
      · rw [if_pos ha, if_neg (by rw [ha]; exact hk), if_pos ha]
      · rw [if_neg ha, if_neg ha, Memory.read]

theorem Memory.read_insert (fill : Int) (m : Memory) (a a' : Nat) (v : Int) (h : ∀ e ∈ m, e.1 ≠ a) :
    Memory.read fill (Memory.insert m a v) a' = if a' = a then v else Memory.read fill m a' := by
  induction m with
  | nil => simp [Memory.insert, Memory.read, eq_comm]
  | cons e m ih =>
    obtain ⟨k, w⟩ := e
    have hk : k ≠ a := h (k, w) (by simp)
    have ih' := ih fun e he => h e (by simp [he])
    by_cases hlt : a < k
    · simp [Memory.insert, hlt, Memory.read, eq_comm]
    · by_cases ha : a' = a
      · subst ha; simp [Memory.insert, hlt, Memory.read, hk, ih']
      · simp [Memory.insert, hlt, Memory.read, ih', ha]

theorem Memory.mem_erase {m : Memory} {a : Nat} {e : Nat × Int} :
    e ∈ Memory.erase m a ↔ e ∈ m ∧ e.1 ≠ a := by
  induction m with
  | nil => simp [Memory.erase]
  | cons x m ih =>
    obtain ⟨k, w⟩ := x
    by_cases hk : k = a
    · rw [Memory.erase, if_pos hk, ih, List.mem_cons]
      constructor
      · rintro ⟨h, hne⟩; exact ⟨.inr h, hne⟩
      · rintro ⟨rfl | h, hne⟩
        · exact absurd hk hne
        · exact ⟨h, hne⟩
    · simp only [Memory.erase, if_neg hk, List.mem_cons, ih]
      constructor
      · rintro (rfl | ⟨h, hne⟩)
        · exact ⟨.inl rfl, hk⟩
        · exact ⟨.inr h, hne⟩
      · rintro ⟨rfl | h, hne⟩
        · exact .inl rfl
        · exact .inr ⟨h, hne⟩

theorem Memory.mem_insert {m : Memory} {a : Nat} {v : Int} {e : Nat × Int} :
    e ∈ Memory.insert m a v ↔ e = (a, v) ∨ e ∈ m := by
  induction m with
  | nil => simp [Memory.insert]
  | cons x m ih =>
    obtain ⟨k, w⟩ := x
    by_cases hlt : a < k
    · simp [Memory.insert, hlt]
    · simp only [Memory.insert, if_neg hlt, List.mem_cons, ih]; tauto

/-- A read after a write: the value written at its address, what was there elsewhere. It needs no canonical form. -/
theorem Memory.read_write (fill : Int) (m : Memory) (a a' : Nat) (v : Int) :
    Memory.read fill (Memory.write fill m a v) a' = if a' = a then v else Memory.read fill m a' := by
  unfold Memory.write
  by_cases hv : v = fill
  · simp [hv, Memory.read_erase]
  · rw [if_neg hv, Memory.read_insert fill _ a a' v (fun e he => (Memory.mem_erase.mp he).2), Memory.read_erase]
    by_cases ha : a' = a <;> simp [ha]

@[simp] theorem Memory.read_write_self (fill : Int) (m : Memory) (a : Nat) (v : Int) :
    Memory.read fill (Memory.write fill m a v) a = v := by simp [Memory.read_write]

theorem Memory.read_write_of_ne (fill : Int) (m : Memory) {a a' : Nat} (v : Int) (h : a' ≠ a) :
    Memory.read fill (Memory.write fill m a v) a' = Memory.read fill m a' := by simp [Memory.read_write, h]

/-! ### The canonical form -/

theorem Memory.wf_iff {fill : Int} {m : Memory} :
    Memory.wf fill m = true ↔ (m.map Prod.fst).Pairwise (· < ·) ∧ ∀ e ∈ m, e.2 ≠ fill := by
  simp [Memory.wf]

@[simp] theorem Memory.wf_nil (fill : Int) : Memory.wf fill [] = true := rfl

theorem Memory.wf_erase {fill : Int} {m : Memory} (a : Nat) (h : Memory.wf fill m = true) :
    Memory.wf fill (Memory.erase m a) = true := by
  rw [Memory.wf_iff] at h ⊢
  refine ⟨?_, fun e he => h.2 e (Memory.mem_erase.mp he).1⟩
  have hp := h.1
  clear h
  induction m with
  | nil => simp [Memory.erase]
  | cons x m ih =>
    obtain ⟨k, w⟩ := x
    simp only [List.map_cons, List.pairwise_cons] at hp
    by_cases hk : k = a
    · simpa [Memory.erase, hk] using ih hp.2
    · simp only [Memory.erase, if_neg hk, List.map_cons, List.pairwise_cons]
      refine ⟨fun b hb => hp.1 b ?_, ih hp.2⟩
      simp only [List.mem_map] at hb ⊢
      obtain ⟨e, he, rfl⟩ := hb
      exact ⟨e, (Memory.mem_erase.mp he).1, rfl⟩

theorem Memory.wf_insert {fill : Int} {m : Memory} {a : Nat} {v : Int} (h : Memory.wf fill m = true)
    (ha : ∀ e ∈ m, e.1 ≠ a) (hv : v ≠ fill) : Memory.wf fill (Memory.insert m a v) = true := by
  rw [Memory.wf_iff] at h ⊢
  refine ⟨?_, fun e he => ?_⟩
  · have hp := h.1
    clear h
    induction m with
    | nil => simp [Memory.insert]
    | cons x m ih =>
      obtain ⟨k, w⟩ := x
      simp only [List.map_cons, List.pairwise_cons] at hp
      have hne : k ≠ a := ha (k, w) (by simp)
      by_cases hlt : a < k
      · simp only [Memory.insert, if_pos hlt, List.map_cons, List.pairwise_cons, List.mem_cons]
        refine ⟨?_, hp⟩
        rintro b (rfl | hb)
        · exact hlt
        · exact lt_trans hlt (hp.1 b hb)
      · simp only [Memory.insert, if_neg hlt, List.map_cons, List.pairwise_cons]
        refine ⟨fun b hb => ?_, ih (fun e he => ha e (by simp [he])) hp.2⟩
        simp only [List.mem_map] at hb
        obtain ⟨e, he, rfl⟩ := hb
        rcases Memory.mem_insert.mp he with rfl | he
        · exact lt_of_le_of_ne (not_lt.mp hlt) hne
        · exact hp.1 e.1 (List.mem_map.mpr ⟨e, he, rfl⟩)
  · rcases Memory.mem_insert.mp he with rfl | he
    · exact hv
    · exact h.2 e he

/-- Writing keeps the canonical form. -/
theorem Memory.wf_write {fill : Int} {m : Memory} (a : Nat) (v : Int) (h : Memory.wf fill m = true) :
    Memory.wf fill (Memory.write fill m a v) = true := by
  unfold Memory.write
  by_cases hv : v = fill
  · simpa [hv] using Memory.wf_erase a h
  · rw [if_neg hv]
    exact Memory.wf_insert (Memory.wf_erase a h) (fun e he => (Memory.mem_erase.mp he).2) hv

/-- What a written memory lists: the old entries of other addresses, and at most the one written. -/
theorem Memory.mem_write {fill : Int} {m : Memory} {a : Nat} {v : Int} {e : Nat × Int}
    (h : e ∈ Memory.write fill m a v) : e ∈ m ∨ e = (a, v) := by
  unfold Memory.write at h
  split at h
  · exact .inl (Memory.mem_erase.mp h).1
  · rcases Memory.mem_insert.mp h with h | h
    · exact .inr h
    · exact .inl (Memory.mem_erase.mp h).1

/-- A read answers the fill value or a listed value. -/
theorem Memory.read_mem (fill : Int) (m : Memory) (a : Nat) :
    Memory.read fill m a = fill ∨ (a, Memory.read fill m a) ∈ m := by
  induction m with
  | nil => exact .inl rfl
  | cons x m ih =>
    obtain ⟨k, w⟩ := x
    by_cases hk : k = a
    · subst hk; right; simp [Memory.read]
    · simp only [Memory.read, if_neg hk, List.mem_cons]
      exact ih.imp_right .inr

/-! ### The saturating-range function -/

/-- `sat` in numbers (44_arithmetic.md R110). -/
theorem sat_eq {cfg : Config} (h : cfg.Legal) (n : Int) :
    sat cfg n = if n > 65535 then 65535 else if n < -65535 then -65535 else n := by
  rw [sat, h.valMax_eq, h.valMin_eq]

theorem sat_inV {cfg : Config} (h : cfg.Legal) (n : Int) : InV cfg (sat cfg n) := by
  rw [h.inV_iff, sat_eq h]; split_ifs <;> omega

@[simp] theorem sat_of_inV {cfg : Config} {v : Int} (h : InV cfg v) : sat cfg v = v := by
  unfold sat; split_ifs <;> omega

/-! ### Operand forms -/

theorem memAddress_eq_some {cfg : Config} {v : Int} {a : Nat} :
    memAddress cfg v = some a ↔ (a : Int) = v ∧ a ≤ cfg.memTop := by
  unfold memAddress
  split_ifs with h
  · simp only [Option.some.injEq]; omega
  · simp; omega

theorem memAddress_eq_none {cfg : Config} {v : Int} :
    memAddress cfg v = none ↔ v < 0 ∨ v > (cfg.memTop : Int) := by
  unfold memAddress
  split_ifs with h
  · simp; omega
  · simp; omega

/-! ### How an instruction ends, and what each shared operation answers -/

theorem completeBy_eq (n : Nat) (s : State) : completeBy n s = .next (s.setPc (s.pc + n)) := rfl
theorem complete_eq (s : State) : complete s = .next (s.setPc (s.pc + 1)) := rfl
theorem halt_eq (s : State) : halt s = .next (s.setRun .halted) := rfl
theorem takeJump_eq (t : Nat) (s : State) : takeJump t s = .next (s.setPc t) := rfl
theorem raiseFault_eq (k : Cause) (s : State) : raiseFault k s = .next (s.setRun (.faulted k)) := rfl

theorem copyReg_eq (src dst : Reg) (s : State) :
    copyReg src dst s = .next ((s.writeReg dst (s.readReg src)).setPc (s.pc + 1)) := by
  cases dst <;> rfl

theorem finish_eq (cfg : Config) (x : Int) (s : State) :
    finish cfg x s = .next ((s.writeReg .C (sat cfg x)).setPc (s.pc + 1)) := rfl

theorem finishWithFlags_eq (cfg : Config) (x : Int) (s : State) :
    finishWithFlags cfg x s =
      .next (((s.writeReg .C (sat cfg x)).setFlags (sat cfg x)).setPc (s.pc + 1)) := rfl

theorem jumpToC_of_nonneg {s : State} (h : 0 ≤ s.c) : jumpToC s = .next (s.setPc s.c.toNat) := by
  simp [jumpToC, jumpTarget, h, takeJump_eq]

theorem jumpToC_of_neg {s : State} (h : s.c < 0) : jumpToC s = .next (s.setRun (.faulted .jumpTargetNegative)) := by
  simp [jumpToC, jumpTarget, not_le.mpr h, raiseFault_eq]

@[simp] theorem jumpToCIf_true (s : State) : jumpToCIf true s = jumpToC s := rfl
@[simp] theorem jumpToCIf_false (s : State) : jumpToCIf false s = complete s := rfl

theorem applyDivZero_fault {cfg : Config} (h : cfg.divZero = .fault) (s : State) :
    applyDivZero cfg s = .next (s.setRun (.faulted .divideByZero)) := by rw [applyDivZero, h]; rfl

theorem applyDivZero_saturate {cfg : Config} (h : cfg.divZero = .saturate) (s : State) :
    applyDivZero cfg s =
      .next ((s.writeReg .C (if 0 ≤ s.a then cfg.valMax else cfg.valMin)).setPc (s.pc + 1)) := by
  rw [applyDivZero, h]; rfl

theorem applyInexact_fault {cfg : Config} (h : cfg.inexact = .fault) (q : Rat) (s : State) :
    applyInexact cfg q s = .next (s.setRun (.faulted .inexactResult)) := by rw [applyInexact, h]; rfl

theorem applyInexact_round {cfg : Config} {f : Rat → Int} (h : cfg.inexact = .round f) (q : Rat) (s : State) :
    applyInexact cfg q s = .next ((s.writeReg .C (sat cfg (f q))).setPc (s.pc + 1)) := by rw [applyInexact, h]; rfl

/-- Everything a division-by-zero policy can do: the fault, or a signed extreme in C. -/
theorem applyDivZero_cases {cfg : Config} (hl : cfg.Legal) (s : State) :
    applyDivZero cfg s = .next (s.setRun (.faulted .divideByZero)) ∨
    ∃ v, InV cfg v ∧ applyDivZero cfg s = .next ((s.writeReg .C v).setPc (s.pc + 1)) := by
  cases h : cfg.divZero with
  | fault => exact .inl (applyDivZero_fault h s)
  | saturate =>
    refine .inr ⟨_, ?_, applyDivZero_saturate h s⟩
    rw [hl.inV_iff, hl.valMax_eq, hl.valMin_eq]; split_ifs <;> omega

/-- Everything an inexact-result policy can do: the fault, or a value of V in C. -/
theorem applyInexact_cases {cfg : Config} (hl : cfg.Legal) (q : Rat) (s : State) :
    applyInexact cfg q s = .next (s.setRun (.faulted .inexactResult)) ∨
    ∃ v, InV cfg v ∧ applyInexact cfg q s = .next ((s.writeReg .C v).setPc (s.pc + 1)) := by
  cases h : cfg.inexact with
  | fault => exact .inl (applyInexact_fault h q s)
  | round f => exact .inr ⟨_, sat_inV hl _, applyInexact_round h q s⟩

/-! ### The meanings that branch, in terms of the fields of the state -/

theorem execLdmWith_eq (cfg : Config) (imm : Int) (s : State) :
    execLdmWith cfg imm s =
      if s.pc + 1 > cfg.memTop then .next (s.setRun (.faulted .immediateOutOfRange))
      else .next ((s.writeReg .C (sat cfg imm)).setPc (s.pc + 2)) := rfl

theorem execMstWith_of_some {cfg : Config} {s : State} {a : Nat} (h : memAddress cfg s.c = some a) :
    execMstWith cfg s = .next ((s.memWrite cfg a s.b).setPc (s.pc + 1)) := by
  simp [execMstWith, h, complete_eq]

theorem execMstWith_of_none {cfg : Config} {s : State} (h : memAddress cfg s.c = none) :
    execMstWith cfg s = .next (s.setRun (.faulted .memAddressOutOfRange)) := by
  simp [execMstWith, h, raiseFault_eq]

theorem execMldWith_of_some {cfg : Config} {s : State} {a : Nat} (h : memAddress cfg s.b = some a) :
    execMldWith cfg s = .next ((s.writeReg .C (s.memRead cfg a)).setPc (s.pc + 1)) := by
  simp [execMldWith, h, complete_eq]

theorem execMldWith_of_none {cfg : Config} {s : State} (h : memAddress cfg s.b = none) :
    execMldWith cfg s = .next (s.setRun (.faulted .memAddressOutOfRange)) := by
  simp [execMldWith, h, raiseFault_eq]

theorem execPshWith_eq (cfg : Config) (s : State) :
    execPshWith cfg s =
      if s.sp > cfg.stackTop then .next (s.setRun (.faulted .stackOverflow))
      else .next (((s.stackWrite cfg s.sp s.c).setSp (s.sp + 1)).setPc (s.pc + 1)) := rfl

theorem execPopWith_eq (cfg : Config) (s : State) :
    execPopWith cfg s =
      if s.sp = 0 then .next (s.setRun (.faulted .stackUnderflow))
      else .next (((s.setSp (s.sp - 1)).writeReg .C (s.stackRead cfg (s.sp - 1))).setPc (s.pc + 1)) := rfl

theorem execDivWith_eq (cfg : Config) (s : State) :
    execDivWith cfg s =
      if s.b = 0 then applyDivZero cfg s
      else if s.a % s.b = 0 then finish cfg (s.a / s.b) s
      else applyInexact cfg ((s.a : Rat) / (s.b : Rat)) s := rfl

theorem execExpWith_eq (cfg : Config) (s : State) :
    execExpWith cfg s =
      if 0 ≤ s.b then finish cfg (s.a ^ s.b.toNat) s
      else if s.a = 1 then complete (s.writeReg .C 1)
      else if s.a = -1 then complete (s.writeReg .C (if s.b % 2 = 0 then 1 else -1))
      else if s.a = 0 then applyDivZero cfg s
      else applyInexact cfg (1 / (s.a : Rat) ^ (-s.b).toNat) s := rfl

end Sys2Proof.Machine
end

