-- ==== Sys2Proof/Laws/Engine.lean ====
section
/-! SUPPORT. What a fetch and a step can do. -/

namespace Sys2Proof.Machine

/-- The fetched cells are the clamped cell at pc, then at most one more (40_execution_engine.md R72). -/
theorem fetchCells_eq {cfg : Config} (hl : cfg.Legal) (s : State) :
    ∃ rest, fetchCells cfg s = sat cfg (s.memRead cfg s.pc) :: rest ∧ (rest = [] ↔ s.pc + 1 > cfg.memTop) ∧
      ∀ v ∈ rest, InV cfg v := by
  unfold fetchCells
  split_ifs with h
  · exact ⟨[], rfl, by simp [h], by simp⟩
  · exact ⟨[_], rfl, by simp [h], fun v hv => by rw [List.mem_singleton.mp hv]; exact sat_inV hl _⟩

/-- Decoding the fetched cells answers an instruction, or lacks LDM's immediate in the last cell: the other refusals
of the decoder cannot arise in a step. -/
theorem decode_fetchCells {cfg : Config} (hl : cfg.Legal) (s : State) :
    (∃ i rest, decode cfg (fetchCells cfg s) = .ok (i, rest)) ∨
    (decode cfg (fetchCells cfg s) = .error .immediateMissing ∧ s.pc + 1 > cfg.memTop) := by
  obtain ⟨rest, he, hr, hv⟩ := fetchCells_eq hl s
  rw [he, decode_cons (sat_inV hl _)]
  by_cases hd : decodeOpcode cfg (sat cfg (s.memRead cfg s.pc)) = .ldm
  · rw [hd]
    cases rest with
    | nil => exact .inr ⟨rfl, hr.mp rfl⟩
    | cons v vs => exact .inl ⟨_, _, assemble_ldm (hv v (by simp)) vs⟩
  · obtain ⟨i, -, -, hi⟩ := assemble_one_cell hd rest
    exact .inl ⟨i, rest, hi⟩

theorem engineStep_running {cfg : Config} {ex : Instr → State → Result} {s : State} (h : s.run = .running)
    (hpc : s.pc ≤ cfg.memTop) : engineStep cfg ex s = runFetched cfg ex s := by
  simp [engineStep, h, not_lt.mpr hpc]

theorem engineStep_past_top {cfg : Config} {ex : Instr → State → Result} {s : State} (h : s.run = .running)
    (hpc : s.pc > cfg.memTop) : engineStep cfg ex s = .next (s.setRun .outOfRange) := by
  simp [engineStep, h, hpc]

/-- Everything a step can do, for any dispatch: nothing outside Running; past the top, OutOfRange; otherwise the
decoded instruction, or R95's fault where LDM's immediate is missing. -/
theorem engineStep_cases {cfg : Config} (hl : cfg.Legal) {ex : Instr → State → Result} {s t : State}
    (h : engineStep cfg ex s = .next t) :
    s.run = .running ∧
    ((s.pc > cfg.memTop ∧ t = s.setRun .outOfRange) ∨
     (s.pc ≤ cfg.memTop ∧ ∃ i rest, decode cfg (fetchCells cfg s) = .ok (i, rest) ∧ ex i s = .next t) ∨
     (s.pc = cfg.memTop ∧ decode cfg (fetchCells cfg s) = .error .immediateMissing ∧
      t = s.setRun (.faulted .immediateOutOfRange))) := by
  cases hr : s.run with
  | running =>
    refine ⟨rfl, ?_⟩
    by_cases hpc : s.pc > cfg.memTop
    · rw [engineStep_past_top hr hpc] at h
      cases h
      exact .inl ⟨hpc, rfl⟩
    · have hle := not_lt.mp hpc
      rw [engineStep_running hr hle, runFetched] at h
      rcases decode_fetchCells hl s with ⟨i, rest, hd⟩ | ⟨hd, htop⟩
      · rw [hd] at h
        exact .inr (.inl ⟨hle, i, rest, hd, h⟩)
      · rw [hd] at h
        cases h
        exact .inr (.inr ⟨by omega, hd, rfl⟩)
  | _ => simp [engineStep, hr] at h

/-- `exec` is the generic dispatch at the default parameters. -/
theorem exec_eq_execWith (i : Instr) (s : State) : exec i s = execWith Config.default i s := by
  cases i <;> rfl

/-- `step` is the generic step at the default parameters. -/
theorem step_eq_stepWith (s : State) : step s = stepWith Config.default s := by
  have h : exec = execWith Config.default := by funext i s; exact exec_eq_execWith i s
  unfold step stepWith
  rw [h]

/-! ### Runs -/

@[simp] theorem runFor_zero (s : State) : runFor 0 s = s := rfl

theorem runFor_succ {s t : State} (h : step s = .next t) (n : Nat) : runFor (n + 1) s = runFor n t := by
  show repeatStep step (n + 1) s = _
  unfold repeatStep
  rw [h]
  rfl

end Sys2Proof.Machine
end

