-- ==== Sys2Proof/Laws/PerInstr.lean ====
section
/-! SUPPORT. Per-instruction facts about the encoding: a well-formed instruction's cells under legal parameters are as many
as its mnemonic says (30_encoding.md R58), begin with its opcode (R51, R52), and are values of V (R12). -/

namespace Sys2Proof.Laws.Encoding

/-- The shape of the encoded instruction. -/
def Statement (i : Instr) : Prop :=
  ∀ cfg : Config, cfg.Legal → i.wellFormed cfg = true →
    (encode cfg i).length = i.mnemonic.length ∧ (encode cfg i).head? = some (cfg.opc i.mnemonic : Int) ∧
    ∀ v ∈ encode cfg i, InV cfg v

theorem ldm (imm : Int) : Statement (.ldm imm) := by
  intro cfg h hw
  have := h.opc_inV .ldm
  simp only [Instr.wellFormed, decide_eq_true_eq] at hw
  simp only [encode, Mnemonic.length, Instr.mnemonic]
  refine ⟨rfl, rfl, ?_⟩
  intro v hv
  simp only [List.mem_cons, List.not_mem_nil, or_false] at hv
  rcases hv with rfl | rfl <;> assumption

/-- The one-cell format F0. -/
theorem one_cell {i : Instr} (he : ∀ cfg, encode cfg i = [(cfg.opc i.mnemonic : Int)])
    (hl : i.mnemonic.length = 1) : Statement i := by
  intro cfg h _
  have := h.opc_inV i.mnemonic
  rw [he cfg, hl]
  refine ⟨rfl, rfl, ?_⟩
  intro v hv
  simp only [List.mem_cons, List.not_mem_nil, or_false] at hv
  rw [hv]; assumption

theorem nop : Statement .nop := one_cell (fun _ => rfl) rfl
theorem lda : Statement .lda := one_cell (fun _ => rfl) rfl
theorem ldb : Statement .ldb := one_cell (fun _ => rfl) rfl
theorem sta : Statement .sta := one_cell (fun _ => rfl) rfl
theorem stb : Statement .stb := one_cell (fun _ => rfl) rfl
theorem mst : Statement .mst := one_cell (fun _ => rfl) rfl
theorem mld : Statement .mld := one_cell (fun _ => rfl) rfl
theorem psh : Statement .psh := one_cell (fun _ => rfl) rfl
theorem pop : Statement .pop := one_cell (fun _ => rfl) rfl
theorem add : Statement .add := one_cell (fun _ => rfl) rfl
theorem sub : Statement .sub := one_cell (fun _ => rfl) rfl
theorem mul : Statement .mul := one_cell (fun _ => rfl) rfl
theorem div : Statement .div := one_cell (fun _ => rfl) rfl
theorem exp : Statement .exp := one_cell (fun _ => rfl) rfl
theorem jmp : Statement .jmp := one_cell (fun _ => rfl) rfl
theorem jmz : Statement .jmz := one_cell (fun _ => rfl) rfl
theorem jmu : Statement .jmu := one_cell (fun _ => rfl) rfl
theorem jmo : Statement .jmo := one_cell (fun _ => rfl) rfl
theorem hlt : Statement .hlt := one_cell (fun _ => rfl) rfl

end Sys2Proof.Laws.Encoding
end

