-- ==== Sys2Proof/Tests/Slice0.lean ====
section
/-! SUPPORT. Tests of one decoding or one step each, with the results of 95_test_vectors.md (the vector's id is in the comment) or
worked out by hand from the rule named, and for every statement with hypotheses a witness that meets them. -/

namespace Sys2Proof.Tests

open Sys2Proof Sys2Proof.Machine

/-- The reset state with registers A, B, C and some program memory. -/
def st (a b c : Int) (mem : Memory) : State := { State.reset with a := a, b := b, c := c, mem := mem }

/-- The next state of an answer. -/
def nextOf : Result → Option State
  | .next t => some t
  | .fault _ => none
  | .refused _ => none

/-- A, B, C of the next state. -/
def abc (r : Result) : Option (Int × Int × Int) := (nextOf r).map fun t => (t.a, t.b, t.c)

/-- pc and run of the next state. -/
def pcRun (r : Result) : Option (Nat × Run) := (nextOf r).map fun t => (t.pc, t.run)

/-- C and the flags Z, U, O of the next state. -/
def cFlags (r : Result) : Option (Int × Bool × Bool × Bool) := (nextOf r).map fun t => (t.c, t.z, t.u, t.o)

/-! ### Well-formedness -/

theorem test_wellFormed_immediate_bounds :
    (Instr.ldm 65535).wellFormed Config.default = true ∧ (Instr.ldm (-65535)).wellFormed Config.default = true := by decide

theorem test_illFormed_immediate_refused :
    (Instr.ldm 65536).wellFormed Config.default = false ∧ (Instr.ldm (-65536)).wellFormed Config.default = false := by decide

/-! ### Decoding: words written out from 30_encoding.md R51, R52, R54 -/

theorem test_decode_register_transfer :
    decodeTableWord 17 0b0_0000_0000_0000_0001 = some .lda ∧ decodeTableWord 17 0b0_0000_0000_0000_0010 = some .ldb ∧
    decodeTableWord 17 0b0_0000_0000_0000_0011 = some .sta ∧ decodeTableWord 17 0b0_0000_0000_0000_0100 = some .stb ∧
    decodeTableWord 34 0b1_1111_1110_1101_0100_0_0000_0000_0000_0101 = some (.ldm (-300)) := by decide

theorem test_decode_memory_transfer_and_stack :
    decodeTableWord 17 0b0_0000_0000_0000_0110 = some .mst ∧ decodeTableWord 17 0b0_0000_0000_0000_0111 = some .mld ∧
    decodeTableWord 17 0b0_0000_0000_0000_1000 = some .psh ∧ decodeTableWord 17 0b0_0000_0000_0000_1001 = some .pop := by
  decide

theorem test_decode_arithmetic :
    decodeTableWord 17 0b0_0000_0000_0000_1010 = some .add ∧ decodeTableWord 17 0b0_0000_0000_0000_1011 = some .sub ∧
    decodeTableWord 17 0b0_0000_0000_0000_1100 = some .mul ∧ decodeTableWord 17 0b0_0000_0000_0000_1101 = some .div ∧
    decodeTableWord 17 0b0_0000_0000_0000_1110 = some .exp := by decide

theorem test_decode_control_flow :
    decodeTableWord 17 0b0_0000_0000_0000_1111 = some .jmp ∧ decodeTableWord 17 0b0_0000_0000_0001_0000 = some .jmz ∧
    decodeTableWord 17 0b0_0000_0000_0001_0001 = some .jmu ∧ decodeTableWord 17 0b0_0000_0000_0001_0010 = some .jmo ∧
    decodeTableWord 17 0b0_0000_0000_0001_0011 = some .hlt ∧ decodeTableWord 17 0b0_0000_0000_0000_0000 = some .nop := by
  decide

/-- DE4 to DE8: no masking, and every unassigned value is NOP. -/
theorem test_decode_unassigned :
    decodeOpcode Config.default 20 = .nop ∧ decodeOpcode Config.default 255 = .nop ∧
    decodeOpcode Config.default 261 = .nop ∧ decodeOpcode Config.default (-5) = .nop ∧
    decodeOpcode Config.default 65535 = .nop ∧ decodeOpcode Config.default (-65535) = .nop := by decide

/-- What the decoder refuses: no cell, a value no cell holds (R12), an LDM without its immediate (R95). -/
theorem test_decode_refusals :
    (decode Config.default []).toOption = none ∧ (decode Config.default [65536]).toOption = none ∧
    (decode Config.default [5]).toOption = none ∧ (decode Config.default [5, -65536]).toOption = none := by decide

theorem test_encode_of_ldm : encode Config.default (.ldm (-300)) = [5, -300] := by decide

/-! ### Register transfer -/

/-- RT1 to RT4. -/
theorem test_register_copies :
    abc (exec .lda (st 7 2 9 [])) = some (7, 2, 7) ∧ abc (exec .ldb (st 7 2 9 [])) = some (7, 2, 2) ∧
    abc (exec .sta (st 7 2 9 [])) = some (9, 2, 9) ∧ abc (exec .stb (st 7 2 9 [])) = some (7, 9, 9) := by decide

/-- RT7: the immediate equals OPC(HLT) and is not executed. -/
theorem test_ldm_step :
    abc (step (st 7 2 9 [(0xFF00, 5), (0xFF01, 19)])) = some (7, 2, 19) ∧
    pcRun (step (st 7 2 9 [(0xFF00, 5), (0xFF01, 19)])) = some (0xFF02, .running) := by decide

/-- RT8: the opcode in the last cell. RT9: the immediate in the last cell. -/
theorem test_ldm_at_the_top :
    pcRun (step { st 0 0 9 [(65534, 5)] with pc := 65534 }) = some (65534, .faulted .immediateOutOfRange) ∧
    pcRun (step { st 0 0 0 [(65533, 5), (65534, 9)] with pc := 65533 }) = some (65535, .running) := by decide

/-! ### Memory transfer -/

/-- MT1, MT3. -/
theorem test_mst :
    (nextOf (exec .mst (st 0 19 0xFF20 []))).map State.mem = some [(0xFF20, 19)] ∧
    (nextOf (exec .mst (st 0 1 65534 [(3, 4)]))).map State.mem = some [(3, 4), (65534, 1)] := by decide

/-- MT4, MT5, and storing OPC(NOP) restores the reset content (R101). -/
theorem test_mst_edges :
    pcRun (exec .mst (st 0 1 65535 [])) = some (0xFF00, .faulted .memAddressOutOfRange) ∧
    pcRun (exec .mst (st 0 1 (-1) [])) = some (0xFF00, .faulted .memAddressOutOfRange) ∧
    (nextOf (exec .mst (st 0 0 3 [(3, 4)]))).map State.mem = some [] := by decide

/-- MT6, MT9, MT8. -/
theorem test_mld :
    abc (exec .mld (st 0 100 5 [])) = some (0, 100, 0) ∧
    abc (exec .mld (st 0 0xFF20 5 [(0xFF20, -12)])) = some (0, 0xFF20, -12) ∧
    pcRun (exec .mld (st 0 65535 5 [])) = some (0xFF00, .faulted .memAddressOutOfRange) := by decide

/-! ### Stack -/

/-- ST1, ST4, ST5. -/
theorem test_psh :
    (nextOf (exec .psh { st 0 0 42 [] with sp := 3 })).map (fun t => (t.stack, t.sp, t.c)) = some ([(3, 42)], 4, 42) ∧
    pcRun (exec .psh { st 0 0 7 [] with sp := 65535 }) = some (0xFF00, .faulted .stackOverflow) ∧
    (nextOf (exec .psh { st 0 0 7 [] with sp := 65534 })).map (fun t => (t.stack, t.sp)) =
      some ([(65534, 7)], 65535) := by decide

/-- ST2, ST3. -/
theorem test_pop :
    (nextOf (exec .pop { st 0 0 7 [] with sp := 4, stack := [(3, 42)] })).map (fun t => (t.stack, t.sp, t.c)) =
      some ([(3, 42)], 3, 42) ∧
    pcRun (exec .pop (st 0 0 7 [])) = some (0xFF00, .faulted .stackUnderflow) := by decide

/-! ### Arithmetic -/

/-- DE12: the saturating-range function at and around its bounds. -/
theorem test_sat_bounds :
    [65536, -65536, 131070, -131070, 65535, -65535, 0, 4294836225].map (sat Config.default) =
      [65535, -65535, 65535, -65535, 65535, -65535, 0, 65535] := by decide

/-- AD1, AD3, AD6, AD8. -/
theorem test_add :
    cFlags (exec .add (st 5 3 0 [])) = some (8, false, false, true) ∧
    cFlags (exec .add (st (-5) 3 0 [])) = some (-2, false, true, false) ∧
    cFlags (exec .add (st 65535 65535 0 [])) = some (65535, false, false, true) ∧
    cFlags (exec .add (st 65535 (-65535) 0 [])) = some (0, true, false, false) := by decide

/-- SB1, SB4, SB6, SB7. -/
theorem test_sub :
    cFlags (exec .sub (st 3 5 0 [])) = some (-2, false, true, false) ∧
    cFlags (exec .sub (st (-65535) 65535 0 [])) = some (-65535, false, true, false) ∧
    cFlags (exec .sub (st 0 (-65535) 0 [])) = some (65535, false, false, true) ∧
    cFlags (exec .sub (st (-65535) (-65535) 0 [])) = some (0, true, false, false) := by decide

/-- MU1, MU3, MU4, MU7: the flags stay T F F. -/
theorem test_mul :
    cFlags (exec .mul { st (-7) 6 0 [] with z := true }) = some (-42, true, false, false) ∧
    cFlags (exec .mul { st 256 256 0 [] with z := true }) = some (65535, true, false, false) ∧
    cFlags (exec .mul { st 255 257 0 [] with z := true }) = some (65535, true, false, false) ∧
    cFlags (exec .mul { st (-65535) (-65535) 0 [] with z := true }) = some (65535, true, false, false) := by decide

/-- DV1, DV2, DV3, DV5. -/
theorem test_div_exact :
    cFlags (exec .div { st 42 (-6) 0 [] with z := true }) = some (-7, true, false, false) ∧
    abc (exec .div (st (-12) 4 0 [])) = some (-12, 4, -3) ∧ abc (exec .div (st (-12) (-4) 0 [])) = some (-12, -4, 3) ∧
    abc (exec .div (st 65535 (-1) 0 [])) = some (65535, -1, -65535) := by decide

/-- DV7, DV8, DV9, DV10. -/
theorem test_div_faults :
    pcRun (exec .div (st 7 2 0 [])) = some (0xFF00, .faulted .inexactResult) ∧
    pcRun (exec .div (st 1 2 0 [])) = some (0xFF00, .faulted .inexactResult) ∧
    pcRun (exec .div (st 7 0 0 [])) = some (0xFF00, .faulted .divideByZero) ∧
    pcRun (exec .div (st 0 0 0 [])) = some (0xFF00, .faulted .divideByZero) := by decide

/-- EX1 to EX6, EX11. -/
theorem test_exp :
    abc (exec .exp (st 2 10 0 [])) = some (2, 10, 1024) ∧ abc (exec .exp (st (-3) 3 0 [])) = some (-3, 3, -27) ∧
    abc (exec .exp (st 2 16 0 [])) = some (2, 16, 65535) ∧ abc (exec .exp (st (-2) 17 0 [])) = some (-2, 17, -65535) ∧
    abc (exec .exp (st 0 0 0 [])) = some (0, 0, 1) := by decide

/-- EX19 to EX23. -/
theorem test_exp_negative_exponent :
    abc (exec .exp (st 1 (-5) 0 [])) = some (1, -5, 1) ∧ abc (exec .exp (st (-1) (-3) 0 [])) = some (-1, -3, -1) ∧
    abc (exec .exp (st (-1) (-4) 0 [])) = some (-1, -4, 1) ∧
    pcRun (exec .exp (st 0 (-1) 0 [])) = some (0xFF00, .faulted .divideByZero) ∧
    pcRun (exec .exp (st 2 (-1) 0 [])) = some (0xFF00, .faulted .inexactResult) := by decide

/-- DV13: DIV_ZERO_POLICY = saturate. -/
theorem test_divZero_saturate :
    let cfg := { Config.default with divZero := .saturate }
    abc (execWith cfg .div (st 7 0 0 [])) = some (7, 0, 65535) ∧
    abc (execWith cfg .div (st (-7) 0 0 [])) = some (-7, 0, -65535) ∧
    abc (execWith cfg .div (st 0 0 0 [])) = some (0, 0, 65535) := by decide

/-- DV11, DV12, EX24: INEXACT_POLICY = trunc and = floor. -/
theorem test_inexact_round :
    roundTrunc (7 / 2) = 3 ∧ roundTrunc (-7 / 2) = -3 ∧ roundFloor (-7 / 2) = -4 ∧
    roundTrunc (-1 / 2) = 0 ∧ roundFloor (-1 / 2) = -1 := by decide +kernel

/-! ### Control flow -/

/-- CF1, CF3, CF4. -/
theorem test_jmp :
    pcRun (exec .jmp (st 0 0 0xFF20 [])) = some (0xFF20, .running) ∧
    pcRun (exec .jmp (st 0 0 65535 [])) = some (65535, .running) ∧
    pcRun (exec .jmp (st 0 0 (-1) [])) = some (0xFF00, .faulted .jumpTargetNegative) := by decide

/-- CF6, CF7, CF13. -/
theorem test_jmz :
    pcRun (exec .jmz (st 0 0 (-1) [])) = some (0xFF01, .running) ∧
    pcRun (exec .jmz { st 0 0 0xFF0E [] with z := true }) = some (0xFF0E, .running) ∧
    pcRun (exec .jmz { st 0 0 (-7) [] with z := true }) = some (0xFF00, .faulted .jumpTargetNegative) := by decide

/-- CF8, CF9. -/
theorem test_jmu :
    pcRun (exec .jmu { st 0 0 0xFF30 [] with z := true }) = some (0xFF01, .running) ∧
    pcRun (exec .jmu { st 0 0 0xFF30 [] with u := true }) = some (0xFF30, .running) := by decide

/-- CF10, CF12. -/
theorem test_jmo :
    pcRun (exec .jmo { st 0 0 0xFF40 [] with u := true }) = some (0xFF01, .running) ∧
    pcRun (exec .jmo { st 0 0 0xFF40 [] with o := true }) = some (0xFF40, .running) := by decide

/-- S2: HLT alone. -/
theorem test_hlt : nextOf (step (st 0 0 0 [(0xFF00, 19)])) = some { st 0 0 0 [(0xFF00, 19)] with run := .halted } := by
  decide

/-- CF15: NOP, and a cell holding 261. -/
theorem test_nop :
    pcRun (step (st 0 0 0 [])) = some (0xFF01, .running) ∧
    nextOf (step (st 1 2 3 [(0xFF00, 261)])) = some { st 1 2 3 [(0xFF00, 261)] with pc := 0xFF01 } := by decide

/-! ### Engine and host -/

/-- DE9, and that a terminal state has no step (DE11). -/
theorem test_guard_and_terminal :
    pcRun (step { st 0 0 0 [] with pc := 65535 }) = some (65535, .outOfRange) ∧
    nextOf (step { st 0 0 0 [] with run := .halted }) = none := by decide

/-- MT10: the store is what the next step fetches. -/
theorem test_self_modifying :
    pcRun (step (runFor 1 (st 0 19 0xFF01 [(0xFF00, 6)]))) = some (0xFF01, .halted) := by decide

/-- A word placed by `withFetchWord` at reset: ADD, and LDM with a zero immediate. -/
theorem test_withFetchWord :
    pcRun (step (State.reset.withFetchWord 24 0x0A)) = some (0xFF01, .running) ∧
    pcRun (step (State.reset.withFetchWord 24 0x05)) = some (0xFF02, .running) ∧
    pcRun (step (State.reset.withFetchWord 17 0x0D)) = some (0xFF00, .faulted .divideByZero) := by decide

/-- The seven codes of R152. -/
theorem test_cause_codes :
    [Cause.divideByZero, .inexactResult, .stackOverflow, .stackUnderflow, .memAddressOutOfRange, .immediateOutOfRange,
      .jumpTargetNegative].map Cause.code = [1, 2, 3, 4, 5, 6, 7] := by decide

/-! ### Witnesses: for every statement with hypotheses, a state and operands that meet them, clause by clause -/

/-- Another legal configuration: 0xFFFF is a cell, the entry is at 0, division by zero saturates. -/
def cfg2 : Config := { Config.default with memTop := 0xFFFF, resetVector := 0, divZero := .saturate }

theorem cfg2_legal : cfg2.Legal where
  valMax_eq := rfl
  valMin_eq := rfl
  nregs_eq := rfl
  spReset_eq := rfl
  resetVector_le := by decide
  opc_injective := Config.default_legal.opc_injective
  opc_byte := Config.default_legal.opc_byte
  rounding := by intro f h; cases h

/-- A configuration whose inexact results are rounded toward minus infinity. -/
def cfg3 : Config := { Config.default with inexact := .round roundFloor }

theorem test_witness_DecodeOfEncodeIsTheInstruction :
    Config.default.Legal ∧ cfg2.Legal ∧ (Instr.ldm (-65535)).wellFormed cfg2 = true ∧
    Instr.hlt.wellFormed Config.default = true :=
  ⟨Config.default_legal, cfg2_legal, by decide, by decide⟩

theorem test_witness_DecodedCellsEncodeBackOrAreUnassigned :
    decode Config.default [5, 65535, 1] = .ok (.ldm 65535, [1]) ∧ decode Config.default [-19, 1] = .ok (.nop, [1]) ∧
    ∀ m, (Config.default.opc m : Int) ≠ -19 :=
  ⟨rfl, rfl, by intro m; cases m <;> decide⟩

theorem test_witness_CellPatternsStandForTheValues :
    Config.default.Legal ∧ InV Config.default 65535 ∧ InV Config.default (-65535) ∧
    ¬InV Config.default (cellOfPattern 0x10000#17) := ⟨Config.default_legal, by decide, by decide, by decide⟩

theorem test_witness_ResetLeavesTheStateOfTheSpec :
    cfg2.Legal ∧ ((Session.mk .started (st 1 2 3 [(4, 5)])).reset cfg2).machine.mem = [] := ⟨cfg2_legal, rfl⟩

theorem test_witness_ResetMeetsTheInvariant : Config.default.Legal ∧ cfg2.Legal := ⟨Config.default_legal, cfg2_legal⟩

theorem test_witness_EveryStepKeepsTheInvariant :
    (∃ s t, State.Inv Config.default s ∧ step s = .next t ∧ t.c = 65535) ∧
    ∃ s t, cfg2.Legal ∧ State.Inv cfg2 s ∧ stepWith cfg2 s = .next t ∧ t.c = -65535 :=
  ⟨⟨st 65535 65535 0 [(0xFF00, 10)], _, by decide, rfl, by decide⟩,
   ⟨{ st (-7) 0 0 [(0xFF00, 13)] with sp := 65535, stack := [(3, -65535)] }, _, cfg2_legal, by decide, rfl, by decide⟩⟩

theorem test_witness_NoRegisterOrCellEverLeavesTheRange :
    ∃ h h', Session.launch Config.default h [(0, -65535), (65534, 65535), (0xFF00, 5)] = .next h' ∧
      h'.machine.mem = [(0, -65535), (0xFF00, 5), (65534, 65535)] :=
  ⟨⟨.started, State.reset⟩, _, rfl, by decide⟩

theorem test_witness_CanonicalMemoriesThatReadAlikeAreEqual :
    Memory.wf 0 [(0, -1), (65534, 2)] = true ∧ Memory.wf 0 [(3, 0)] = false ∧ Memory.wf 0 [(3, 1), (3, 1)] = false ∧
    ∀ a, Memory.read 0 [(0, -1), (65534, 2)] a = Memory.read 0 [(0, -1), (65534, 2)] a :=
  ⟨by decide, by decide, by decide, fun _ => rfl⟩

theorem test_witness_StepRunsTheDecodedInstruction :
    ∃ s i rest, s.run = .running ∧ s.pc ≤ Config.default.memTop ∧
      decode Config.default (fetchCells Config.default s) = .ok (i, rest) ∧ i.wellFormed Config.default = true ∧
      i = .ldm 19 :=
  ⟨st 0 0 0 [(0xFF00, 5), (0xFF01, 19)], _, _, rfl, by decide, rfl, by decide, by decide⟩

theorem ldm_cells (m : Memory) (pc : Nat) (v : Int) (h0 : Memory.read 0 m pc = 5) (h1 : Memory.read 0 m (pc + 1) = v) :
    ∀ (k : Nat) (w : Int), (encode Config.default (.ldm v))[k]? = some w → Memory.read 0 m (pc + k) = w
  | 0, w, h => by simp only [encode, List.getElem?_cons_zero, Option.some.injEq] at h; rw [← h]; exact h0
  | 1, w, h => by
    simp only [encode, List.getElem?_cons_succ, List.getElem?_cons_zero, Option.some.injEq] at h; rw [← h]; exact h1
  | k + 2, w, h => by simp [encode] at h

theorem test_witness_EncodedInstructionAtPcRuns :
    ∃ (i : Instr) (s : State), Config.default.Legal ∧ i.wellFormed Config.default = true ∧ s.run = .running ∧
      s.pc + (encode Config.default i).length = Config.default.memTop + 1 ∧
      ∀ (k : Nat) (v : Int), (encode Config.default i)[k]? = some v → s.memRead Config.default (s.pc + k) = v :=
  ⟨.ldm (-9), { st 0 0 0 [(65533, 5), (65534, -9)] with pc := 65533 }, Config.default_legal, by decide, rfl, by decide,
   ldm_cells _ _ _ (by decide) (by decide)⟩

theorem test_witness_PlacedTableWordRunsNext :
    ∃ s : State, s.run = .running ∧ s.pc + Instr.hlt.mnemonic.length = Config.default.memTop + 1 ∧
      decodeTableWord 24 0x13 = some .hlt :=
  ⟨{ State.reset with pc := 65534 }, rfl, by decide, by decide⟩

theorem test_witness_GuardEndsTheRunPastTheTop :
    { State.reset with pc := 65535 }.Inv Config.default ∧
    (∃ s : State, s.run = .running ∧ s.pc = Config.default.memTop + 1) ∧
    ∃ s : State, s.run = .running ∧ s.pc = cfg2.memTop + 1 :=
  ⟨by decide, ⟨{ State.reset with pc := 65535 }, rfl, by decide⟩, ⟨{ State.reset with pc := 65536 }, rfl, by decide⟩⟩

theorem test_witness_AStepIsDefinedExactlyWhenRunning :
    (∃ t, step State.reset = .next t) ∧ { State.reset with run := .faulted .stackOverflow }.run ≠ .running :=
  ⟨⟨_, rfl⟩, by decide⟩

theorem test_witness_ARunEndsInThreeWays :
    (∃ t, step (st 0 0 0 []) = .next t ∧ t.run = .running) ∧
    (∃ t, step (st 0 0 0 [(0xFF00, 19)]) = .next t ∧ t.run = .halted) ∧
    (∃ t, step { State.reset with pc := 65535 } = .next t ∧ t.run = .outOfRange) ∧
    (∃ t, step (st 0 0 0 [(0xFF00, 9)]) = .next t ∧ t.run = .faulted .stackUnderflow) ∧
    ∃ t, step { st 0 0 0 [(65534, 5)] with pc := 65534 } = .next t ∧ t.run = .faulted .immediateOutOfRange :=
  ⟨⟨_, rfl, rfl⟩, ⟨_, rfl, rfl⟩, ⟨_, rfl, rfl⟩, ⟨_, rfl, rfl⟩, ⟨_, rfl, rfl⟩⟩

theorem test_witness_UnassignedCellActsAsNop :
    ∃ s : State, s.run = .running ∧ s.pc = Config.default.memTop ∧
      ∀ m, (Config.default.opc m : Int) ≠ s.memRead Config.default s.pc :=
  ⟨{ st 0 0 0 [(65534, 261)] with pc := 65534 }, rfl, by decide, by intro m; cases m <;> decide⟩

theorem test_witness_NopsToTheTopRunOffIntoOutOfRange :
    ∃ s : State, s.run = .running ∧ s.pc ≤ Config.default.memTop + 1 ∧
      ∀ a, s.pc ≤ a → a ≤ Config.default.memTop →
        ∀ m, m ≠ .nop → (Config.default.opc m : Int) ≠ s.memRead Config.default a :=
  ⟨State.reset, rfl, by decide, fun _ _ _ m hm => by
    show (Config.default.opc m : Int) ≠ 0
    revert hm
    cases m <;> decide⟩

theorem test_witness_ARunWithoutTakenJumpsEnds :
    ∃ s : State, s.run = .running ∧ s.pc ≤ Config.default.memTop + 1 ∧ ∀ k, stepTakesJump (runFor k s) = false := by
  refine ⟨{ st 0 0 0 [(65534, 16)] with pc := 65534 }, rfl, by decide, ?_⟩
  intro k
  match k with
  | 0 => decide
  | 1 => decide
  | k + 2 =>
    rw [runFor_succ rfl, runFor_succ rfl]
    cases k <;> rfl

theorem test_witness_AJumpToItselfNeverEnds :
    ∃ s : State, s.run = .running ∧ s.pc ≤ Config.default.memTop ∧
      s.memRead Config.default s.pc = Config.default.opc .jmp ∧ s.c = s.pc :=
  ⟨st 0 0 0xFF00 [(0xFF00, 15)], rfl, by decide, by decide, by decide⟩

/-- Every cause of the table is met by some state, and so is its neighbour that does not fault. -/
theorem test_witness_FaultsFollowTheTableAndArePrecise :
    faultCause Config.default .div (st 7 0 0 []) = some .divideByZero ∧
    faultCause Config.default .div (st 7 2 0 []) = some .inexactResult ∧
    faultCause Config.default .div (st 8 2 0 []) = none ∧
    faultCause Config.default .exp (st 0 (-1) 0 []) = some .divideByZero ∧
    faultCause Config.default .exp (st (-2) (-1) 0 []) = some .inexactResult ∧
    faultCause Config.default .exp (st (-1) (-1) 0 []) = none ∧
    faultCause Config.default .psh { State.reset with sp := 65535 } = some .stackOverflow ∧
    faultCause Config.default .pop State.reset = some .stackUnderflow ∧
    faultCause Config.default .mst (st 0 0 65535 []) = some .memAddressOutOfRange ∧
    faultCause Config.default .mld (st 0 65534 0 []) = none ∧
    faultCause Config.default (.ldm 1) { State.reset with pc := 65534 } = some .immediateOutOfRange ∧
    faultCause Config.default .jmz (st 0 0 (-1) []) = none ∧
    faultCause Config.default .jmz { st 0 0 (-1) [] with z := true } = some .jumpTargetNegative := by decide

theorem test_witness_PcFollowsTheControlTable :
    faultCause Config.default (.ldm 1) State.reset = none ∧ faultCause Config.default .hlt State.reset = none ∧
    faultCause Config.default .jmp State.reset = none := by decide

theorem test_witness_RegistersAreWrittenOnlyByTheirInstructions :
    (∃ t, exec .stb (st 1 2 3 []) = .next t) ∧ (∃ t, exec .sta (st 1 2 3 []) = .next t) ∧
    Instr.mst.mnemonic ∉ [Mnemonic.lda, .ldb, .ldm, .mld, .pop, .add, .sub, .mul, .div, .exp] :=
  ⟨⟨_, rfl⟩, ⟨_, rfl⟩, by decide⟩

theorem test_witness_MemoriesAndSpAreWrittenOnlyByTheirInstructions :
    (∃ t, exec .mst (st 0 7 65534 []) = .next t) ∧
    memAddress Config.default ((st 0 7 65534 []).readReg .C) = some 65534 ∧
    (∃ t, exec .psh (st 0 7 5 []) = .next t) ∧ ∃ t, exec .lda (st 0 7 5 []) = .next t :=
  ⟨⟨_, rfl⟩, by decide, ⟨_, rfl⟩, ⟨_, rfl⟩⟩

theorem test_witness_FlagsFollowTheSaturatedSumOrDifferenceOnly :
    (∃ t, exec .mul { st 2 3 0 [] with z := true } = .next t ∧ t.c = 6) ∧
    ∃ t, exec .div { st 2 0 0 [] with z := true } = .next t ∧ t.run ≠ State.reset.run :=
  ⟨⟨_, rfl, by decide⟩, ⟨_, rfl, by decide⟩⟩

theorem test_witness_ExactlyOneFlagIsTrueForEver :
    (∃ s t, step s = .next t ∧ State.ExactlyOneFlag s) ∧
    (∃ s t, step s = .next t ∧ nextInstr s = some .add) ∧ (∃ s t, step s = .next t ∧ nextInstr s = some .sub) ∧
    ∃ s t, step s = .next t ∧ nextInstr s ≠ some .add ∧ nextInstr s ≠ some .sub :=
  ⟨⟨{ st 0 0 0 [] with u := true }, _, rfl, by decide⟩, ⟨st 1 2 3 [(0xFF00, 10)], _, rfl, by decide⟩,
   ⟨st 1 2 3 [(0xFF00, 11)], _, rfl, by decide⟩, ⟨st 1 2 3 [(0xFF00, 12)], _, rfl, by decide, by decide⟩⟩

theorem test_witness_LdmLoadsItsImmediate :
    { State.reset with pc := 65533 }.pc + 1 ≤ Config.default.memTop ∧
    { State.reset with pc := 65534 }.pc + 1 > Config.default.memTop := by decide

theorem test_witness_LdmStepTakesTheNextCell :
    ∃ s : State, Config.default.Legal ∧ s.run = .running ∧ s.pc + 1 = Config.default.memTop ∧
      s.memRead Config.default s.pc = Config.default.opc .ldm :=
  ⟨{ st 0 0 0 [(65533, 5)] with pc := 65533 }, Config.default_legal, rfl, by decide, by decide⟩

theorem test_witness_LdmInTheLastCellFaults :
    ∃ s : State, s.run = .running ∧ s.pc = Config.default.memTop ∧
      s.memRead Config.default s.pc = Config.default.opc .ldm :=
  ⟨{ st 0 0 0 [(65534, 5)] with pc := 65534 }, rfl, by decide, by decide⟩

theorem test_witness_MstStoresBAtTheAddressInC :
    (0 ≤ (st 0 1 0 []).c ∧ (st 0 1 0 []).c ≤ Config.default.memTop) ∧ (st 0 1 65534 []).c ≤ Config.default.memTop ∧
    (st 0 1 (-1) []).c < 0 ∧ (st 0 1 65535 []).c > Config.default.memTop := by decide

theorem test_witness_MldLoadsTheCellBAddresses :
    (st 0 65534 0 []).b = (65534 : Nat) ∧ 65534 ≤ Config.default.memTop ∧ (st 0 (-1) 0 []).b < 0 ∧
    (st 0 65535 0 []).b > Config.default.memTop := by decide

theorem test_witness_PshStoresCAtSpAndAdvancesSp :
    { State.reset with sp := 65534 }.sp ≤ Config.default.stackTop ∧
    { State.reset with sp := 65535 }.sp > Config.default.stackTop := by decide

theorem test_witness_PopRetreatsSpAndLoadsC :
    { State.reset with sp := 1 }.sp = 0 + 1 ∧ { State.reset with sp := 65535 }.sp = 65534 + 1 ∧ State.reset.sp = 0 := by
  decide

/-- PSH; LDM 5; POP (ST6): one step between the PSH and the POP. -/
theorem test_witness_PushThenPopRestoresCAndSp :
    ∃ s : State, nextInstr s = some .psh ∧ s.sp ≤ Config.default.stackTop ∧
      (∀ j, j < 1 → nextInstr (runFor j (runFor 1 s)) ≠ some .psh ∧ nextInstr (runFor j (runFor 1 s)) ≠ some .pop) ∧
      nextInstr (runFor 1 (runFor 1 s)) = some .pop :=
  ⟨st 0 0 (-9) [(0xFF00, 8), (0xFF01, 5), (0xFF02, 5), (0xFF03, 9)], by decide, by decide, by decide, by decide⟩

/-- PSH; PSH; POP; POP: the last POP is the first PSH's. -/
theorem test_witness_PushThenPopRestoresCAndSp_nested :
    ∃ s : State, nextInstr s = some .psh ∧ s.sp ≤ Config.default.stackTop ∧
      (∀ j, j ≤ 2 → s.sp < (runFor j (runFor 1 s)).sp) ∧ (runFor 2 (runFor 1 s)).sp = s.sp + 1 ∧
      nextInstr (runFor 2 (runFor 1 s)) = some .pop :=
  ⟨st 0 0 7 [(0xFF00, 8), (0xFF01, 8), (0xFF02, 9), (0xFF03, 9)], by decide, by decide, by decide, by decide, by decide⟩

theorem test_witness_AStoreIsSeenByTheNextFetch :
    ∃ s : State, nextInstr s = some .mst ∧ s.pc + 1 ≤ Config.default.memTop ∧ s.c = (s.pc + 1 : Nat) ∧
      encode Config.default .hlt = [s.b] :=
  ⟨st 0 19 0xFF01 [(0xFF00, 6)], by decide, by decide, by decide, by decide⟩

/-- A monotone pair across the upper bound, and both bounds. -/
theorem test_witness_SatClampsToTheRange :
    Config.default.Legal ∧ cfg2.Legal ∧ (65536 : Int) > 65535 ∧ (-65536 : Int) < -65535 ∧ (65535 : Int) ≤ 65536 ∧
    (-65535 : Int) ≤ 65535 :=
  ⟨Config.default_legal, cfg2_legal, by decide, by decide, by decide, by decide⟩

theorem test_witness_PowerBySaturatedStepsEqualsTheSaturatedPower :
    Config.default.Legal ∧ satPowFast Config.default (-2) 17 = -65535 := ⟨Config.default_legal, by decide⟩

theorem test_witness_DivWritesTheExactQuotientOrFaults :
    ((st 42 (-6) 0 []).b ≠ 0 ∧ (-7) * (st 42 (-6) 0 []).b = (st 42 (-6) 0 []).a ∧
      InV Config.default (st 42 (-6) 0 []).a) ∧
    (st 7 0 0 []).b = 0 ∧ (st 7 2 0 []).b ≠ 0 ∧ ∀ q : Int, q * (st 7 2 0 []).b ≠ (st 7 2 0 []).a :=
  ⟨by decide, by decide, by decide, fun q => by show q * 2 ≠ 7; omega⟩

theorem test_witness_ExpWritesTheExactPowerOrFaults :
    (st 0 0 0 []).b = (0 : Nat) ∧ (st 2 65535 0 []).b = (65535 : Nat) ∧ (st 1 (-5) 0 []).b < 0 ∧
    (Even (st (-1) (-4) 0 []).b ∧ Odd (st (-1) (-3) 0 []).b) ∧ (st 0 (-1) 0 []).b < 0 ∧
    2 ≤ (st (-2) (-1) 0 []).a.natAbs := by decide

theorem test_witness_TheOtherPoliciesCompleteDivAndExp :
    cfg2.divZero = .saturate ∧ cfg3.inexact = .round roundFloor ∧ (st 7 0 0 []).b = 0 ∧ (st 0 (-1) 0 []).b < 0 ∧
    (∀ q : Int, q * (st 7 2 0 []).b ≠ (st 7 2 0 []).a) ∧ 2 ≤ (st (-2) (-1) 0 []).a.natAbs :=
  ⟨rfl, rfl, by decide, by decide, fun q => by show q * 2 ≠ 7; omega, by decide⟩

theorem test_witness_ATakenJumpGoesToC :
    ∃ s : State, s.c = 65533 ∧ s.z = true ∧ s.u = true ∧ s.o = true ∧ s.run = .running ∧
      s.c.toNat + (encode Config.default (.ldm 4)).length = Config.default.memTop + 1 ∧
      ∀ (k : Nat) (v : Int), (encode Config.default (.ldm 4))[k]? = some v →
        s.memRead Config.default (s.c.toNat + k) = v :=
  ⟨{ st 0 0 65533 [(65533, 5), (65534, 4)] with z := true, u := true, o := true }, by decide, rfl, rfl, rfl, rfl,
   by decide, ldm_cells _ _ _ (by decide) (by decide)⟩

theorem test_witness_HltHaltsAndKeepsPc : { State.reset with run := .halted }.run = .halted := by decide

theorem test_witness_NopOnlyAdvancesPc : Config.default.Legal ∧ ∀ m, (Config.default.opc m : Int) ≠ 20 :=
  ⟨Config.default_legal, by intro m; cases m <;> decide⟩

theorem test_witness_AConditionalJumpNotTakenOnlyAdvancesPc :
    (st 0 0 (-1) []).z = false ∧ (st 0 0 (-1) []).u = false ∧ (st 0 0 (-1) []).o = false := by decide

theorem test_witness_JumpTargetsOutsideMemory :
    jumpTaken .jmp (st 0 0 (-1) []) = true ∧ (st 0 0 (-1) []).c < 0 ∧
    jumpTaken .jmz { st 0 0 65535 [] with z := true } = true ∧ (st 0 0 65535 []).run = .running ∧
    (st 0 0 65535 []).c > Config.default.memTop := by decide

theorem test_witness_TheLaunchStateIsResetPlusTheLoads :
    ∀ p ∈ [((0 : Int), (-65535 : Int)), (65534, 65535), (0, 5)],
      0 ≤ p.1 ∧ p.1 ≤ Config.default.memTop ∧ InV Config.default p.2 := by decide

theorem test_witness_HostOperationsOutOfOrderAreRefused :
    (-1 : Int) < 0 ∧ (65535 : Int) > Config.default.memTop ∧ ¬InV Config.default 65536 ∧
    ¬InV Config.default (-65536) ∧
    State.reset.run = .running ∧ { State.reset with run := .halted }.run ≠ .running := by decide

end Sys2Proof.Tests
end

namespace Sys2Proof.Machine

/-! ### Cells that match no opcode (30_encoding.md R56) -/

/-- The clamp of the fetch (40_execution_engine.md R72) turns no cell into an opcode: opcodes are bytes, and the only
values it makes are the bounds of V. -/
theorem sat_eq_opc_iff {cfg : Config} (hl : cfg.Legal) {v : Int} {m : Mnemonic} :
    sat cfg v = cfg.opc m ↔ v = cfg.opc m := by
  constructor
  · intro h
    have hbyte := hl.opc_byte m
    rw [sat_eq hl] at h
    split_ifs at h <;> omega
  · rintro rfl
    exact sat_of_inV (hl.opc_inV m)

/-- A step of a Running machine is the meaning of the instruction its fetched cells decode to (R73 to R75). -/
theorem stepWith_of_decode {cfg : Config} {s : State} {i : Instr} {rest : List Int} (hrun : s.run = .running)
    (hpc : s.pc ≤ cfg.memTop) (hd : decode cfg (fetchCells cfg s) = .ok (i, rest)) :
    stepWith cfg s = execWith cfg i s := by
  rw [stepWith, engineStep_running hrun hpc, runFetched, hd]

/-- A clamped cell that decodes to NOP is the whole instruction: the cell after it is left undecoded (R51). -/
theorem decode_fetchCells_nop {cfg : Config} (hl : cfg.Legal) {s : State}
    (hd : decodeOpcode cfg (sat cfg (s.memRead cfg s.pc)) = .nop) :
    ∃ rest, decode cfg (fetchCells cfg s) = .ok (.nop, rest) := by
  obtain ⟨rest, hcells, -, -⟩ := fetchCells_eq hl s
  exact ⟨rest, by rw [hcells, decode_cons (sat_inV hl _), hd, assemble]⟩

/-- NOP under any parameters (45_control_flow.md R138). -/
theorem execWith_nop (cfg : Config) (s : State) : execWith cfg .nop s = .next (s.setPc (s.pc + 1)) := rfl

theorem stepWith_of_unassigned {cfg : Config} (hl : cfg.Legal) {s : State} (hrun : s.run = .running)
    (hpc : s.pc ≤ cfg.memTop) (hw : ∀ m, (cfg.opc m : Int) ≠ s.memRead cfg s.pc) :
    stepWith cfg s = .next (s.setPc (s.pc + 1)) := by
  have hsat : ∀ m, (cfg.opc m : Int) ≠ sat cfg (s.memRead cfg s.pc) :=
    fun m h => hw m ((sat_eq_opc_iff hl).mp h.symm).symm
  obtain ⟨rest, hd⟩ := decode_fetchCells_nop hl (decodeOpcode_unassigned hsat)
  rw [stepWith_of_decode hrun hpc hd, execWith_nop]

/-- Settles O16: the decoder's two cases, and the step, where the clamp of the fetch keeps an unassigned value
unassigned. -/
theorem unassignedCellActsAsNop : Obligations.UnassignedCellActsAsNop := by
  intro cfg hl
  refine ⟨decodeOpcode_opc hl, fun w hw => decodeOpcode_unassigned hw, ?_⟩
  intro s hrun hpc hw
  exact stepWith_of_unassigned hl hrun hpc hw

end Sys2Proof.Machine

namespace Sys2Proof.Machine

/-! ### The step that runs the cells at pc (40_execution_engine.md R72 to R77) -/

theorem assemble_of_ne_ldm {cfg : Config} {i : Instr} (hi : i.mnemonic ≠ .ldm) (rest : List Int) :
    assemble cfg i.mnemonic rest = .ok (i, rest) := by
  cases i with
  | ldm => exact absurd rfl hi
  | _ => rfl

theorem fetchCells_below_top {cfg : Config} {s : State} (htop : s.pc + 1 ≤ cfg.memTop) :
    fetchCells cfg s = [sat cfg (s.memRead cfg s.pc), sat cfg (s.memRead cfg (s.pc + 1))] :=
  if_neg (not_lt.mpr htop)

/-- An opcode at pc is what a step decodes: the clamp of the fetch leaves it as it is. -/
theorem decodeOpcode_sat_opc {cfg : Config} (hl : cfg.Legal) (m : Mnemonic) :
    decodeOpcode cfg (sat cfg (cfg.opc m)) = m := by
  rw [sat_of_inV (hl.opc_inV m), decodeOpcode_opc hl]

/-- A one-cell instruction runs wherever its opcode is at pc, the last cell included (R51). -/
theorem stepWith_of_opcode {cfg : Config} (hl : cfg.Legal) {i : Instr} {s : State} (hi : i.mnemonic ≠ .ldm)
    (hrun : s.run = .running) (hpc : s.pc ≤ cfg.memTop) (hop : s.memRead cfg s.pc = cfg.opc i.mnemonic) :
    stepWith cfg s = execWith cfg i s := by
  obtain ⟨rest, hcells, -, -⟩ := fetchCells_eq hl s
  have hd : decode cfg (fetchCells cfg s) = .ok (i, rest) := by
    rw [hcells, decode_cons (sat_inV hl _), hop, decodeOpcode_sat_opc hl, assemble_of_ne_ldm hi]
  exact stepWith_of_decode hrun hpc hd

/-- An LDM opcode below the last cell runs with the next cell, clamped, as its immediate (R52, R95). -/
theorem stepWith_of_ldm_opcode {cfg : Config} (hl : cfg.Legal) {s : State} (hrun : s.run = .running)
    (htop : s.pc + 1 ≤ cfg.memTop) (hop : s.memRead cfg s.pc = cfg.opc .ldm) :
    stepWith cfg s = execWith cfg (.ldm (sat cfg (s.memRead cfg (s.pc + 1)))) s := by
  have hd : decode cfg (fetchCells cfg s) = .ok (.ldm (sat cfg (s.memRead cfg (s.pc + 1))), []) := by
    rw [fetchCells_below_top htop, decode_cons (sat_inV hl _), hop, decodeOpcode_sat_opc hl,
      assemble_ldm (sat_inV hl _)]
  exact stepWith_of_decode hrun (by omega) hd

theorem execWith_ldm_below_top {cfg : Config} {s : State} (htop : s.pc + 1 ≤ cfg.memTop) (imm : Int) :
    execWith cfg (.ldm imm) s = .next ((s.writeReg .C (sat cfg imm)).setPc (s.pc + 2)) :=
  (execLdmWith_eq cfg imm s).trans (if_neg (not_lt.mpr htop))

/-- Settles O31: the fetch clamps the immediate cell, and the clamp of LDM's meaning (R95) finds a value of V. -/
theorem ldmStepTakesTheNextCell : Obligations.LdmStepTakesTheNextCell := by
  intro cfg hl s hrun htop hop
  rw [stepWith_of_ldm_opcode hl hrun htop hop, execWith_ldm_below_top htop, sat_of_inV (sat_inV hl _)]
  rfl

/-- Where the cells of a well-formed instruction lie from pc on, a step of a Running machine is that instruction. -/
theorem stepWith_of_encode {cfg : Config} (hl : cfg.Legal) {i : Instr} {s : State} (hw : i.wellFormed cfg = true)
    (hrun : s.run = .running) (hfit : s.pc + (encode cfg i).length ≤ cfg.memTop + 1)
    (hcells : ∀ (k : Nat) (v : Int), (encode cfg i)[k]? = some v → s.memRead cfg (s.pc + k) = v) :
    stepWith cfg s = execWith cfg i s := by
  cases i with
  | ldm imm =>
    have himm : InV cfg imm := of_decide_eq_true hw
    have htop : s.pc + 1 ≤ cfg.memTop := Nat.le_of_succ_le_succ hfit
    rw [stepWith_of_ldm_opcode hl hrun htop (hcells 0 _ rfl), hcells 1 imm rfl, sat_of_inV himm]
  | _ => exact stepWith_of_opcode hl (by decide) hrun (Nat.le_of_succ_le_succ hfit) (hcells 0 _ rfl)

/-! ### A taken jump (R79) -/

theorem jumpToCIf_of_nonneg {s : State} {flag : Bool} (hf : flag = true) (hc : 0 ≤ s.c) :
    jumpToCIf flag s = .next (s.setPc s.c.toNat) := by
  rw [hf, jumpToCIf_true, jumpToC_of_nonneg hc]

/-- Settles O48: the four jumps are one shared operation, and the step from the state it answers fetches at C. -/
theorem aTakenJumpGoesToC : Obligations.ATakenJumpGoesToC := by
  intro s hc
  refine ⟨jumpToC_of_nonneg hc, fun hz => jumpToCIf_of_nonneg hz hc, fun hu => jumpToCIf_of_nonneg hu hc,
    fun ho => jumpToCIf_of_nonneg ho hc, ?_⟩
  intro i hw hrun hfit hcells
  rw [step_eq_stepWith, exec_eq_execWith]
  exact stepWith_of_encode Config.default_legal hw hrun hfit hcells

end Sys2Proof.Machine

namespace Sys2Proof.Machine

/-! ### Register transfer (41_register_transfer.md R91 to R94) -/

/-- Format F0 (30_encoding.md R51): an instruction other than LDM is its opcode alone, under every parameter setting. -/
theorem encode_of_ne_ldm {i : Instr} (hi : i.mnemonic ≠ .ldm) (cfg : Config) :
    encode cfg i = [(cfg.opc i.mnemonic : Int)] := by
  cases i with
  | ldm => exact absurd rfl hi
  | _ => rfl

/-- Settles O26: LDA is the shared register copy from A to C. -/
theorem ldaCopiesAToC : Obligations.LdaCopiesAToC :=
  ⟨encode_of_ne_ldm (by decide), fun s => copyReg_eq .A .C s⟩

/-- Settles O27: LDB is the shared register copy from B to C. -/
theorem ldbCopiesBToC : Obligations.LdbCopiesBToC :=
  ⟨encode_of_ne_ldm (by decide), fun s => copyReg_eq .B .C s⟩

/-- Settles O28: STA is the shared register copy from C to A. -/
theorem staCopiesCToA : Obligations.StaCopiesCToA :=
  ⟨encode_of_ne_ldm (by decide), fun s => copyReg_eq .C .A s⟩

/-- Settles O29: STB is the shared register copy from C to B. -/
theorem stbCopiesCToB : Obligations.StbCopiesCToB :=
  ⟨encode_of_ne_ldm (by decide), fun s => copyReg_eq .C .B s⟩

end Sys2Proof.Machine

namespace Sys2Proof.Machine

/-! ### Addition and multiplication (44_arithmetic.md R113, R115) -/

/-- Settles O40: ADD is the shared ending that recomputes the flags, given the exact sum of A and B. -/
theorem addWritesTheSaturatedSum : Obligations.AddWritesTheSaturatedSum :=
  ⟨encode_of_ne_ldm (by decide), fun s => finishWithFlags_eq Config.default (s.a + s.b) s⟩

/-- Settles O42: MUL is the shared ending that leaves the flags, given the exact product of A and B. -/
theorem mulWritesTheSaturatedProduct : Obligations.MulWritesTheSaturatedProduct :=
  ⟨encode_of_ne_ldm (by decide), fun s => finish_eq Config.default (s.a * s.b) s⟩

end Sys2Proof.Machine

namespace Sys2Proof.Machine

/-! ### NOP (45_control_flow.md R138) -/

/-- Settles O52: the one-cell format, the decoder's default for a value that is no opcode, and the shared completion of
one cell. -/
theorem nopOnlyAdvancesPc : Obligations.NopOnlyAdvancesPc :=
  ⟨encode_of_ne_ldm (by decide), fun _ _ _ hw => decodeOpcode_unassigned hw,
    fun s => (exec_eq_execWith .nop s).trans (execWith_nop Config.default s)⟩

end Sys2Proof.Machine

namespace Sys2Proof.Machine

/-! ### Reset (70_reset_and_hazards.md R170) -/

/-- R171: nothing of the session before survives Reset. -/
@[simp] theorem Session.reset_machine (cfg : Config) (h : Session) : (h.reset cfg).machine = State.resetWith cfg := rfl

@[simp] theorem State.memRead_resetWith (cfg : Config) (a : Nat) :
    (State.resetWith cfg).memRead cfg a = cfg.opc .nop := rfl

@[simp] theorem State.stackRead_resetWith (cfg : Config) (a : Nat) :
    (State.resetWith cfg).stackRead cfg a = cfg.opc .nop := rfl

/-- Settles O5: Reset is `State.resetWith`, whose sp is SP_RESET; that SP_RESET is 0 is what the parameters' legality
gives. -/
theorem resetLeavesTheStateOfTheSpec : Obligations.ResetLeavesTheStateOfTheSpec := by
  intro cfg hl h
  rw [Session.reset_machine]
  exact ⟨rfl, rfl, rfl, rfl, rfl, rfl, rfl, hl.spReset_eq, rfl, State.memRead_resetWith cfg,
    State.stackRead_resetWith cfg, rfl⟩

end Sys2Proof.Machine

namespace Sys2Proof

/-! ### Decoder and encoder against each other (30_encoding.md sections 1, 3 to 5) -/

/-- LDM takes its immediate, a value of V, from the next cell (R52). -/
theorem assemble_ldm_inversion {cfg : Config} {v : Int} {cs rest : List Int} {i : Instr}
    (h : assemble cfg .ldm (v :: cs) = .ok (i, rest)) : InV cfg v ∧ i = .ldm v ∧ rest = cs := by
  rw [assemble] at h
  split_ifs at h with hv
  cases h
  exact ⟨hv, rfl, rfl⟩

/-- What `assemble` answers, it took from the cells: the instruction is of that mnemonic, is well-formed, and its cells
are the opcode and the cells consumed. -/
theorem assemble_inversion {cfg : Config} {m : Mnemonic} {cs rest : List Int} {i : Instr}
    (h : assemble cfg m cs = .ok (i, rest)) :
    i.mnemonic = m ∧ i.wellFormed cfg = true ∧ encode cfg i ++ rest = (cfg.opc m : Int) :: cs := by
  by_cases hm : m = .ldm
  · subst hm
    cases cs with
    | nil => cases h
    | cons v cs =>
      obtain ⟨hv, rfl, rfl⟩ := assemble_ldm_inversion h
      exact ⟨rfl, decide_eq_true hv, rfl⟩
  · obtain ⟨j, rfl, hw, hj⟩ := assemble_one_cell (cfg := cfg) hm cs
    rw [hj] at h
    cases h
    exact ⟨rfl, hw, by rw [Machine.encode_of_ne_ldm hm]; rfl⟩

/-- What decodes starts with a value of V, which names the mnemonic assembled from the cells after it. -/
theorem assemble_of_decode {cfg : Config} {w : Int} {cs rest : List Int} {i : Instr}
    (h : decode cfg (w :: cs) = .ok (i, rest)) :
    InV cfg w ∧ assemble cfg (decodeOpcode cfg w) cs = .ok (i, rest) := by
  rw [decode] at h
  split_ifs at h with hw
  exact ⟨hw, h⟩

/-- Settles O1: the opcode decodes to its mnemonic, and LDM's immediate is a value of V because the instruction is
well-formed. -/
theorem decodeOfEncodeIsTheInstruction : Obligations.DecodeOfEncodeIsTheInstruction := by
  intro cfg hl i hw rest
  by_cases hi : i.mnemonic = .ldm
  · cases i with
    | ldm imm =>
      have himm : InV cfg imm := of_decide_eq_true hw
      show decode cfg ((cfg.opc .ldm : Int) :: imm :: rest) = _
      rw [decode_cons (hl.opc_inV _), decodeOpcode_opc hl, assemble_ldm himm]
    | _ => cases hi
  · rw [Machine.encode_of_ne_ldm hi, List.singleton_append, decode_cons (hl.opc_inV _), decodeOpcode_opc hl,
      Machine.assemble_of_ne_ldm hi]

/-- Settles O2: a first cell that is an opcode is the opcode of the decoded mnemonic; any other is decoded as NOP. -/
theorem decodedCellsEncodeBackOrAreUnassigned : Obligations.DecodedCellsEncodeBackOrAreUnassigned := by
  intro cfg hl w cs i rest h
  obtain ⟨-, ha⟩ := assemble_of_decode h
  by_cases hop : ∃ m, (cfg.opc m : Int) = w
  · obtain ⟨m, rfl⟩ := hop
    rw [decodeOpcode_opc hl] at ha
    obtain ⟨-, hw, he⟩ := assemble_inversion ha
    exact ⟨hw, .inl he⟩
  · rw [not_exists] at hop
    rw [decodeOpcode_unassigned hop, assemble] at ha
    cases ha
    exact ⟨rfl, .inr ⟨rfl, rfl, hop⟩⟩

/-! ### 17-bit patterns (10_state.md section 1) -/

theorem cellOfPattern_patternOfCell {v : Int} (h : -65535 ≤ v ∧ v ≤ 65535) : cellOfPattern (patternOfCell v) = v := by
  rw [cellOfPattern, patternOfCell, BitVec.toInt_ofInt]
  exact Int.bmod_eq_of_le (by omega) (by omega)

/-- Two's complement in 17 bits reaches one value below V, that of one pattern. -/
theorem cellOfPattern_eq_neg_65536_iff (p : Pattern) : cellOfPattern p = -65536 ↔ p = 0x10000#17 := by
  rw [cellOfPattern, ← BitVec.toInt_inj]
  rfl

/-- Settles O4: 17 bits hold -65536 to 65535, and -65536 is the value of 0x10000 alone. -/
theorem cellPatternsStandForTheValues : Obligations.CellPatternsStandForTheValues := by
  intro cfg hl
  refine ⟨fun v hv => cellOfPattern_patternOfCell (hl.inV_iff.mp hv), fun p => ?_⟩
  have hlow : -65536 ≤ cellOfPattern p := p.le_toInt
  have hhigh : cellOfPattern p < 65536 := p.toInt_lt
  rw [hl.inV_iff, ne_eq, ← cellOfPattern_eq_neg_65536_iff]
  omega

/-- Settles O3: the decoder, run on the written-out words. -/
theorem defaultOpcodeWordsDecode : Obligations.DefaultOpcodeWordsDecode := by
  unfold Obligations.DefaultOpcodeWordsDecode
  decide

end Sys2Proof

namespace Sys2Proof.Machine

/-! ### The canonical form of memory (log 2) -/

/-- An address no entry lists reads as the fill value. -/
theorem Memory.read_eq_fill {fill : Int} {m : Memory} {a : Nat} (h : ∀ e ∈ m, e.1 ≠ a) :
    Memory.read fill m a = fill :=
  (Memory.read_mem fill m a).resolve_right fun hmem => h _ hmem rfl

/-- The parts of a canonical memory with a first entry. -/
theorem Memory.wf_cons {fill : Int} {k : Nat} {w : Int} {m : Memory} (h : Memory.wf fill ((k, w) :: m) = true) :
    w ≠ fill ∧ (∀ e ∈ m, k < e.1) ∧ Memory.wf fill m = true := by
  rw [Memory.wf_iff, List.map_cons, List.pairwise_cons] at h
  obtain ⟨⟨hlow, hrise⟩, hfill⟩ := h
  exact ⟨hfill _ List.mem_cons_self, fun e he => hlow _ (List.mem_map_of_mem he),
    Memory.wf_iff.mpr ⟨hrise, fun e he => hfill e (List.mem_cons_of_mem _ he)⟩⟩

theorem Memory.read_cons_self (fill : Int) (k : Nat) (w : Int) (m : Memory) :
    Memory.read fill ((k, w) :: m) k = w := if_pos rfl

theorem Memory.read_cons_of_ne (fill : Int) {k a : Nat} (w : Int) (m : Memory) (h : k ≠ a) :
    Memory.read fill ((k, w) :: m) a = Memory.read fill m a := if_neg h

/-- The first listed address of a canonical memory is no higher than that of another that reads alike: below its own
first entry the other reads as the fill value. -/
theorem Memory.first_le_of_read_eq {fill : Int} {k k' : Nat} {w w' : Int} {m m' : Memory}
    (h : Memory.wf fill ((k, w) :: m) = true) (h' : Memory.wf fill ((k', w') :: m') = true)
    (hread : ∀ a, Memory.read fill ((k, w) :: m) a = Memory.read fill ((k', w') :: m') a) : k' ≤ k := by
  obtain ⟨hw, -, -⟩ := Memory.wf_cons h
  obtain ⟨-, hlow', -⟩ := Memory.wf_cons h'
  by_contra hlt
  have hfill : Memory.read fill ((k', w') :: m') k = fill := by
    refine Memory.read_eq_fill fun e he => ?_
    rcases List.mem_cons.mp he with rfl | he
    · omega
    · have := hlow' e he
      omega
  rw [← hread, Memory.read_cons_self] at hfill
  exact hw hfill

/-- Settles O9, by induction on both lists: the first addresses agree, then the first values, then the rests read
alike. -/
theorem canonicalMemoriesThatReadAlikeAreEqual : Obligations.CanonicalMemoriesThatReadAlikeAreEqual := by
  intro fill m
  induction m with
  | nil =>
    rintro (_ | ⟨⟨k', w'⟩, m'⟩) - h' hread
    · rfl
    · obtain ⟨hw', -, -⟩ := Memory.wf_cons h'
      exact absurd ((hread k').trans (Memory.read_cons_self fill k' w' m')).symm hw'
  | cons e m ih =>
    obtain ⟨k, w⟩ := e
    rintro (_ | ⟨⟨k', w'⟩, m'⟩) h h' hread
    · obtain ⟨hw, -, -⟩ := Memory.wf_cons h
      exact absurd ((Memory.read_cons_self fill k w m).symm.trans (hread k)) hw
    · have hk : k' = k :=
        le_antisymm (Memory.first_le_of_read_eq h h' hread) (Memory.first_le_of_read_eq h' h fun a => (hread a).symm)
      subst hk
      have hw : w = w' := by simpa only [Memory.read_cons_self] using hread k'
      obtain ⟨-, hlow, hm⟩ := Memory.wf_cons h
      obtain ⟨-, hlow', hm'⟩ := Memory.wf_cons h'
      have hrest : ∀ a, Memory.read fill m a = Memory.read fill m' a := by
        intro a
        by_cases ha : k' = a
        · rw [Memory.read_eq_fill fun e he => ne_of_gt (ha ▸ hlow e he),
            Memory.read_eq_fill fun e he => ne_of_gt (ha ▸ hlow' e he)]
        · simpa only [Memory.read_cons_of_ne fill _ _ ha] using hread a
      rw [hw, ih m' hm hm' hrest]

end Sys2Proof.Machine

namespace Sys2Proof

/-- Every instruction has its opcode cell (30_encoding.md R50). -/
theorem Mnemonic.length_pos (m : Mnemonic) : 0 < m.length := by cases m <;> decide

theorem Mnemonic.length_eq_two_iff (m : Mnemonic) : m.length = 2 ↔ m = .ldm := by cases m <;> decide

end Sys2Proof

namespace Sys2Proof.Machine

/-! ### What a step does, by the engine state and pc (40_execution_engine.md R70 to R75, R80) -/

theorem stepWith_past_top {cfg : Config} {s : State} (hrun : s.run = .running) (hpc : s.pc > cfg.memTop) :
    stepWith cfg s = .next (s.setRun .outOfRange) := engineStep_past_top hrun hpc

theorem step_past_top {s : State} (hrun : s.run = .running) (hpc : s.pc > Config.default.memTop) :
    step s = .next (s.setRun .outOfRange) := engineStep_past_top hrun hpc

/-- A step of a machine that has ended answers the fault of that name (R80; log 5). -/
theorem step_of_not_running {s : State} (h : s.run ≠ .running) : ∃ r, step s = .fault r := by
  unfold step engineStep
  cases hr : s.run with
  | running => exact absurd hr h
  | halted | outOfRange | faulted cause => exact ⟨_, rfl⟩

theorem step_ne_next_of_not_running {s : State} (h : s.run ≠ .running) (t : State) : step s ≠ .next t := by
  obtain ⟨r, hr⟩ := step_of_not_running h
  rw [hr]
  exact fun h => nomatch h

theorem runFor_of_not_next {s : State} (h : ∀ t, step s ≠ .next t) (n : Nat) : runFor n s = s := by
  cases n with
  | zero => rfl
  | succ n =>
    rw [runFor, repeatStep]
    split
    next t ht => exact absurd ht (h t)
    next => rfl
    next => rfl

/-- Terminal states are absorbing (decision D22). -/
theorem runFor_of_not_running {s : State} (h : s.run ≠ .running) (n : Nat) : runFor n s = s :=
  runFor_of_not_next (step_ne_next_of_not_running h) n

/-! ### The instruction a step executes -/

theorem nextInstr_eq_some_iff {s : State} {i : Instr} :
    nextInstr s = some i ↔ s.run = .running ∧ s.pc ≤ Config.default.memTop ∧
      ∃ rest, decode Config.default (fetchCells Config.default s) = .ok (i, rest) := by
  unfold nextInstr
  by_cases hg : s.run = .running ∧ s.pc ≤ Config.default.memTop
  · rw [if_pos hg]
    cases hd : decode Config.default (fetchCells Config.default s) with
    | ok p => simp [hg, Prod.ext_iff]
    | error e => simp
  · rw [if_neg hg]
    constructor
    · intro h
      cases h
    · rintro ⟨hrun, hpc, -⟩
      exact absurd ⟨hrun, hpc⟩ hg

theorem step_of_nextInstr {s : State} {i : Instr} (h : nextInstr s = some i) : step s = exec i s := by
  obtain ⟨hrun, hpc, rest, hd⟩ := nextInstr_eq_some_iff.mp h
  rw [step_eq_stepWith, exec_eq_execWith, stepWith_of_decode hrun hpc hd]

/-- Where LDM's immediate is missing, the cell at pc is LDM's opcode: the clamp of the fetch makes no opcode. -/
theorem memRead_of_immediateMissing {cfg : Config} (hl : cfg.Legal) {s : State}
    (h : decode cfg (fetchCells cfg s) = .error .immediateMissing) : s.memRead cfg s.pc = cfg.opc .ldm := by
  obtain ⟨rest, hcells, -, -⟩ := fetchCells_eq hl s
  rw [hcells, decode_cons (sat_inV hl _)] at h
  by_cases hd : decodeOpcode cfg (sat cfg (s.memRead cfg s.pc)) = .ldm
  · exact (sat_eq_opc_iff hl).mp (opc_of_decodeOpcode hd (by decide)).symm
  · obtain ⟨i, -, -, hi⟩ := assemble_one_cell (cfg := cfg) hd rest
    rw [hi] at h
    cases h

/-- Everything a step can do: it executes `nextInstr`, or finds pc past the top, or an LDM opcode in the last cell. -/
theorem step_cases {s t : State} (h : step s = .next t) :
    s.run = .running ∧
    ((∃ i, nextInstr s = some i ∧ exec i s = .next t) ∨
     (nextInstr s = none ∧ s.pc > Config.default.memTop ∧ t = s.setRun .outOfRange) ∨
     (nextInstr s = none ∧ s.pc = Config.default.memTop ∧
      s.memRead Config.default s.pc = Config.default.opc .ldm ∧ t = s.setRun (.faulted .immediateOutOfRange))) := by
  obtain ⟨hrun, ⟨hpc, ht⟩ | ⟨hpc, i, rest, hd, hex⟩ | ⟨hpc, hd, ht⟩⟩ := engineStep_cases Config.default_legal h
  · refine ⟨hrun, .inr (.inl ⟨?_, hpc, ht⟩)⟩
    exact if_neg fun hg => absurd hg.2 (not_le.mpr hpc)
  · exact ⟨hrun, .inl ⟨i, nextInstr_eq_some_iff.mpr ⟨hrun, hpc, rest, hd⟩, hex⟩⟩
  · refine ⟨hrun, .inr (.inr ⟨?_, hpc, memRead_of_immediateMissing Config.default_legal hd, ht⟩)⟩
    rw [nextInstr, hd]
    exact ite_self _

/-! ### Running what memory holds at pc -/

/-- Settles O10: the fetched cells decode, so the step is the dispatch on what they decode to. -/
theorem stepRunsTheDecodedInstruction : Obligations.StepRunsTheDecodedInstruction := by
  intro s i rest hrun hpc hd _
  exact step_of_nextInstr (nextInstr_eq_some_iff.mpr ⟨hrun, hpc, rest, hd⟩)

/-- Settles O11: LDM takes the cell after its opcode, every other instruction its opcode alone. -/
theorem encodedInstructionAtPcRuns : Obligations.EncodedInstructionAtPcRuns := by
  intro cfg hl i s hw hrun hfit hcells
  exact stepWith_of_encode hl hw hrun hfit hcells

/-- Where two cells decode to an instruction, a machine that holds those of them it is long runs it. -/
theorem stepWith_of_decoded_cells {cfg : Config} (hl : cfg.Legal) {s : State} {w0 w1 : Int} {i : Instr}
    {rest : List Int} (hd : decode cfg [w0, w1] = .ok (i, rest)) (hrun : s.run = .running)
    (hfit : s.pc + i.mnemonic.length ≤ cfg.memTop + 1) (h0 : s.memRead cfg s.pc = w0)
    (h1 : i.mnemonic = .ldm → s.memRead cfg (s.pc + 1) = w1) : stepWith cfg s = execWith cfg i s := by
  obtain ⟨hw0, ha⟩ := assemble_of_decode hd
  obtain ⟨hm, -, -⟩ := assemble_inversion ha
  by_cases hi : i.mnemonic = .ldm
  · rw [← hm, hi] at ha
    obtain ⟨hw1, rfl, -⟩ := assemble_ldm_inversion ha
    have hop : (cfg.opc .ldm : Int) = w0 := opc_of_decodeOpcode hm.symm (by simp)
    have htop : s.pc + 1 ≤ cfg.memTop := Nat.le_of_succ_le_succ hfit
    rw [stepWith_of_ldm_opcode hl hrun htop (h0.trans hop.symm), h1 rfl, sat_of_inV hw1]
  · have hpc : s.pc ≤ cfg.memTop := by
      have hlen := i.mnemonic.length_pos
      omega
    obtain ⟨cells, hcells, -, -⟩ := fetchCells_eq hl s
    refine stepWith_of_decode (rest := cells) hrun hpc ?_
    rw [hcells, decode_cons (sat_inV hl _), h0, sat_of_inV hw0, ← hm, assemble_of_ne_ldm hi]

/-- A Load of a value of V at a cell of program memory is performed (70_reset_and_hazards.md R174). -/
theorem placeCell_of_valid {cfg : Config} {s : State} {a : Nat} {v : Int} (ha : a ≤ cfg.memTop) (hv : InV cfg v) :
    placeCell cfg s a v = s.memWrite cfg a v := by
  rw [placeCell, memAddress_eq_some.mpr ⟨rfl, ha⟩]
  exact if_pos hv

@[simp] theorem State.memRead_memWrite_self (cfg : Config) (s : State) (a : Nat) (v : Int) :
    (s.memWrite cfg a v).memRead cfg a = v := Memory.read_write_self _ _ _ _

theorem State.memRead_memWrite_of_ne (cfg : Config) (s : State) {a x : Nat} (v : Int) (h : x ≠ a) :
    (s.memWrite cfg a v).memRead cfg x = s.memRead cfg x := Memory.read_write_of_ne _ _ _ h
@[simp] theorem State.stackRead_stackWrite_self (cfg : Config) (s : State) (a : Nat) (v : Int) :
    (s.stackWrite cfg a v).stackRead cfg a = v := Memory.read_write_self _ _ _ _

theorem State.stackRead_stackWrite_of_ne (cfg : Config) (s : State) {a x : Nat} (v : Int) (h : x ≠ a) :
    (s.stackWrite cfg a v).stackRead cfg x = s.stackRead cfg x := Memory.read_write_of_ne _ _ _ h

/-- Settles O12: the first cell of the word lies at pc, and under LDM's opcode the second lies after it. -/
theorem placedTableWordRunsNext : Obligations.PlacedTableWordRunsNext := by
  intro s nbits w i hrun hfit hword
  obtain ⟨w0, w1, hcells⟩ : ∃ w0 w1, cellsOfTableWord nbits w = [w0, w1] := ⟨_, _, rfl⟩
  obtain ⟨rest, hd⟩ : ∃ rest, decode Config.default [w0, w1] = .ok (i, rest) := by
    rw [decodeTableWord, hcells] at hword
    split at hword
    next j rest hd => cases hword; exact ⟨rest, hd⟩
    next => cases hword
  obtain ⟨hw0, ha⟩ := assemble_of_decode hd
  obtain ⟨hm, -, -⟩ := assemble_inversion ha
  have hpc : s.pc ≤ Config.default.memTop := by
    have := i.mnemonic.length_pos
    omega
  rw [step_eq_stepWith, exec_eq_execWith, State.withFetchWord, placeTableWord, hcells]
  simp only [placeCell_of_valid hpc hw0, ← hm, Mnemonic.length_eq_two_iff]
  by_cases hi : i.mnemonic = .ldm
  · rw [← hm, hi] at ha
    obtain ⟨hw1, -, -⟩ := assemble_ldm_inversion ha
    have htop : s.pc + 1 ≤ Config.default.memTop := by
      rw [hi] at hfit
      exact Nat.le_of_succ_le_succ hfit
    rw [if_pos hi, placeCell_of_valid htop hw1]
    refine stepWith_of_decoded_cells Config.default_legal hd hrun hfit ?_ fun _ => State.memRead_memWrite_self _ _ _ _
    rw [State.memWrite_pc, State.memWrite_pc, State.memRead_memWrite_of_ne _ _ _ (Nat.ne_of_lt s.pc.lt_succ_self)]
    exact State.memRead_memWrite_self _ _ _ _
  · rw [if_neg hi]
    exact stepWith_of_decoded_cells Config.default_legal hd hrun hfit (State.memRead_memWrite_self _ _ _ _)
      fun h => absurd h hi

/-! ### How a run goes on and ends -/

/-- Settles O13: the guard comes before the fetch, and 65535 is the only pc above MEM_TOP the invariant leaves. -/
theorem guardEndsTheRunPastTheTop : Obligations.GuardEndsTheRunPastTheTop := by
  refine ⟨fun cfg s hrun hpc => stepWith_past_top hrun hpc, fun s hrun hpc => step_past_top hrun hpc,
    fun s hinv hpc => ?_⟩
  obtain ⟨-, -, hle, -⟩ := hinv
  exact le_antisymm hle hpc

/-- Settles O32: the fetch lacks the immediate, which a step answers by R95's fault. -/
theorem ldmInTheLastCellFaults : Obligations.LdmInTheLastCellFaults := by
  intro s hrun hpc hop
  have hd : decode Config.default (fetchCells Config.default s) = .error .immediateMissing := by
    rw [fetchCells, if_pos (by omega), decode_cons (sat_inV Config.default_legal _), hop,
      decodeOpcode_sat_opc Config.default_legal]
    rfl
  rw [step_eq_stepWith, stepWith, engineStep_running hrun hpc.le, runFetched, hd]
  rfl

/-- Settles O19: the jump's target is its own cell, so each step answers the state it started from. -/
theorem aJumpToItselfNeverEnds : Obligations.AJumpToItselfNeverEnds := by
  intro s hrun hpc hop hc
  have hstep : step s = .next s := by
    rw [step_eq_stepWith, stepWith_of_opcode (i := .jmp) Config.default_legal (by decide) hrun hpc hop]
    refine (jumpToC_of_nonneg (by omega)).trans ?_
    rw [hc, Int.toNat_natCast]
    rfl
  intro n
  induction n with
  | zero => rfl
  | succ n ih => rw [runFor_succ hstep, ih]

end Sys2Proof.Machine

namespace Sys2Proof.Machine

/-! ### What an instruction can do to the state

`Effect` says once, for every legal parameter setting, what executing an instruction can leave; `execWith_effect` ties
it to the dispatch. What no instruction does is read off it. -/

/-- Executing `i` in `s` under `cfg` leaves the given state. `load` is every plain write of C: its value is a value of V
where the state meets the invariant, and under the default policies the table gives it no cause. -/
inductive Effect (cfg : Config) (s : State) : Instr → State → Prop
  | fault {i : Instr} {cause : Cause} (h : faultCause cfg i s = some cause) :
      Effect cfg s i (s.setRun (.faulted cause))
  | halt : Effect cfg s .hlt (s.setRun .halted)
  | jump {i : Instr} (h : jumpTaken i s = true) (hc : 0 ≤ s.c) : Effect cfg s i (s.setPc s.c.toNat)
  | skip {i : Instr} (hi : i ∈ [Instr.nop, .jmz, .jmu, .jmo]) (h : jumpTaken i s = false) :
      Effect cfg s i (s.setPc (s.pc + 1))
  | copyToA : Effect cfg s .sta ((s.writeReg .A s.c).setPc (s.pc + 1))
  | copyToB : Effect cfg s .stb ((s.writeReg .B s.c).setPc (s.pc + 1))
  | load {i : Instr} {v : Int} (hi : i ∈ [Instr.lda, .ldb, .mld, .mul, .div, .exp])
      (hv : s.Inv cfg → InV cfg v)
      (hf : cfg.divZero = .fault → cfg.inexact = .fault → faultCause cfg i s = none) :
      Effect cfg s i ((s.writeReg .C v).setPc (s.pc + 1))
  | loadImmediate {imm : Int} (h : s.pc + 1 ≤ cfg.memTop) :
      Effect cfg s (.ldm imm) ((s.writeReg .C (sat cfg imm)).setPc (s.pc + 2))
  | sumOrDifference {i : Instr} {x : Int} (hi : i ∈ [Instr.add, .sub]) :
      Effect cfg s i (((s.writeReg .C (sat cfg x)).setFlags (sat cfg x)).setPc (s.pc + 1))
  | store {addr : Nat} (h : memAddress cfg s.c = some addr) :
      Effect cfg s .mst ((s.memWrite cfg addr s.b).setPc (s.pc + 1))
  | push (h : s.sp ≤ cfg.stackTop) :
      Effect cfg s .psh (((s.stackWrite cfg s.sp s.c).setSp (s.sp + 1)).setPc (s.pc + 1))
  | pop (h : s.sp ≠ 0) :
      Effect cfg s .pop (((s.setSp (s.sp - 1)).writeReg .C (s.stackRead cfg (s.sp - 1))).setPc (s.pc + 1))

/-- The answer `r` is a next state, and one that executing `i` can leave. -/
def HasEffect (cfg : Config) (s : State) (i : Instr) (r : Result) : Prop :=
  ∃ t, r = .next t ∧ Effect cfg s i t

section
variable {cfg : Config} {s : State} {i : Instr}

/-- A cell of a memory whose entries are values of V holds a value of V. -/
theorem Memory.read_inV (hl : cfg.Legal) {top : Nat} {m : Memory} (h : Memory.InRange cfg top m) (a : Nat) :
    InV cfg (Memory.read cfg.fill m a) := by
  rcases Memory.read_mem cfg.fill m a with hfill | hmem
  · rw [hfill]
    exact hl.fill_inV
  · exact (h _ hmem).2

theorem extreme_inV (hl : cfg.Legal) (p : Prop) [Decidable p] : InV cfg (if p then cfg.valMax else cfg.valMin) := by
  rw [hl.inV_iff, hl.valMax_eq, hl.valMin_eq]
  split_ifs <;> decide

theorem unit_inV (hl : cfg.Legal) (v : Int) (h : v = 1 ∨ v = -1) : InV cfg v := by
  rw [hl.inV_iff]
  omega

theorem finish_effect (hl : cfg.Legal) {x : Int} (hi : i ∈ [Instr.mul, .div, .exp]) (hf : faultCause cfg i s = none) :
    HasEffect cfg s i (finish cfg x s) :=
  ⟨_, rfl, .load (List.mem_append_right [Instr.lda, .ldb, .mld] hi) (fun _ => sat_inV hl x) fun _ _ => hf⟩

theorem mem_loads_of_mem_div_exp (hi : i ∈ [Instr.div, .exp]) : i ∈ [Instr.lda, .ldb, .mld, .mul, .div, .exp] :=
  List.mem_append_right [Instr.lda, .ldb, .mld, .mul] hi

theorem applyDivZero_effect (hl : cfg.Legal) (hi : i ∈ [Instr.div, .exp])
    (h : faultCause cfg i s = some .divideByZero) : HasEffect cfg s i (applyDivZero cfg s) := by
  cases hz : cfg.divZero with
  | fault => exact ⟨_, applyDivZero_fault hz s, .fault h⟩
  | saturate =>
    refine ⟨_, applyDivZero_saturate hz s, .load (mem_loads_of_mem_div_exp hi) (fun _ => extreme_inV hl _) fun hd => ?_⟩
    rw [hz] at hd
    cases hd

theorem applyInexact_effect (hl : cfg.Legal) {q : Rat} (hi : i ∈ [Instr.div, .exp])
    (h : faultCause cfg i s = some .inexactResult) : HasEffect cfg s i (applyInexact cfg q s) := by
  cases hx : cfg.inexact with
  | fault => exact ⟨_, applyInexact_fault hx q s, .fault h⟩
  | round f =>
    refine ⟨_, applyInexact_round hx q s, .load (mem_loads_of_mem_div_exp hi) (fun _ => sat_inV hl _) fun _ hd => ?_⟩
    rw [hx] at hd
    cases hd

theorem execDivWith_effect (hl : cfg.Legal) : HasEffect cfg s .div (execDivWith cfg s) := by
  rw [execDivWith_eq]
  split_ifs with hb hdvd
  · exact applyDivZero_effect hl (by decide) (by simp [faultCause, hb])
  · exact finish_effect hl (by decide) (by simp [faultCause, hb, Int.dvd_of_emod_eq_zero hdvd])
  · have hndvd : ¬s.b ∣ s.a := fun h => hdvd (Int.emod_eq_zero_of_dvd h)
    exact applyInexact_effect hl (by decide) (by simp [faultCause, hb, hndvd])

theorem execExpWith_effect (hl : cfg.Legal) : HasEffect cfg s .exp (execExpWith cfg s) := by
  rw [execExpWith_eq]
  by_cases hb : 0 ≤ s.b
  · rw [if_pos hb]
    exact finish_effect hl (by decide) (by simp [faultCause, not_lt.mpr hb])
  rw [if_neg hb]
  by_cases h1 : s.a = 1
  · rw [if_pos h1]
    exact ⟨_, rfl, .load (by decide) (fun _ => unit_inV hl _ (.inl rfl)) fun _ _ => by simp [faultCause, h1]⟩
  rw [if_neg h1]
  by_cases hm1 : s.a = -1
  · rw [if_pos hm1]
    exact ⟨_, rfl, .load (by decide) (fun _ => unit_inV hl _ (ite_eq_or_eq _ _ _))
      fun _ _ => by simp [faultCause, hm1]⟩
  rw [if_neg hm1]
  by_cases h0 : s.a = 0
  · rw [if_pos h0]
    exact applyDivZero_effect hl (by decide) (by simp [faultCause, not_le.mp hb, h0])
  · rw [if_neg h0]
    have hbig : 2 ≤ s.a.natAbs := by omega
    exact applyInexact_effect hl (by decide) (by simp [faultCause, not_le.mp hb, h0, hbig])

theorem execMstWith_effect : HasEffect cfg s .mst (execMstWith cfg s) := by
  cases h : memAddress cfg s.c with
  | none => exact ⟨_, execMstWith_of_none h, .fault (if_pos (memAddress_eq_none.mp h))⟩
  | some addr => exact ⟨_, execMstWith_of_some h, .store h⟩

theorem execMldWith_effect (hl : cfg.Legal) : HasEffect cfg s .mld (execMldWith cfg s) := by
  cases h : memAddress cfg s.b with
  | none => exact ⟨_, execMldWith_of_none h, .fault (if_pos (memAddress_eq_none.mp h))⟩
  | some addr =>
    refine ⟨_, execMldWith_of_some h, .load (by decide) ?_ fun _ _ => if_neg fun hn => ?_⟩
    · rintro ⟨-, -, -, -, -, -, hmem, -⟩
      exact Memory.read_inV hl hmem addr
    · rw [memAddress_eq_none.mpr hn] at h
      cases h

theorem execLdmWith_effect {imm : Int} : HasEffect cfg s (.ldm imm) (execLdmWith cfg imm s) := by
  rw [execLdmWith_eq]
  split_ifs with h
  · exact ⟨_, rfl, .fault (if_pos h)⟩
  · exact ⟨_, rfl, .loadImmediate (not_lt.mp h)⟩

theorem execPshWith_effect : HasEffect cfg s .psh (execPshWith cfg s) := by
  rw [execPshWith_eq]
  split_ifs with h
  · exact ⟨_, rfl, .fault (if_pos h)⟩
  · exact ⟨_, rfl, .push (not_lt.mp h)⟩

theorem execPopWith_effect : HasEffect cfg s .pop (execPopWith cfg s) := by
  rw [execPopWith_eq]
  split_ifs with h
  · exact ⟨_, rfl, .fault (if_pos h)⟩
  · exact ⟨_, rfl, .pop h⟩

theorem jumpToC_effect (ht : jumpTaken i s = true)
    (hf : s.c < 0 → faultCause cfg i s = some .jumpTargetNegative) : HasEffect cfg s i (jumpToC s) := by
  rcases lt_or_ge s.c 0 with hc | hc
  · exact ⟨_, jumpToC_of_neg hc, .fault (hf hc)⟩
  · exact ⟨_, jumpToC_of_nonneg hc, .jump ht hc⟩

theorem jumpToCIf_effect (hi : i ∈ [Instr.jmz, .jmu, .jmo])
    (hf : jumpTaken i s = true → s.c < 0 → faultCause cfg i s = some .jumpTargetNegative) :
    HasEffect cfg s i (jumpToCIf (jumpTaken i s) s) := by
  cases ht : jumpTaken i s with
  | false => exact ⟨_, rfl, .skip (List.mem_cons_of_mem _ hi) ht⟩
  | true => exact jumpToC_effect ht (hf ht)

/-- Every instruction answers a next state, one that `Effect` allows it. -/
theorem execWith_effect (hl : cfg.Legal) (i : Instr) (s : State) : HasEffect cfg s i (execWith cfg i s) := by
  cases i with
  | nop => exact ⟨_, rfl, .skip (by decide) rfl⟩
  | lda => exact ⟨_, rfl, .load (by decide) (fun ⟨⟨ha, _⟩, _⟩ => ha) fun _ _ => rfl⟩
  | ldb => exact ⟨_, rfl, .load (by decide) (fun ⟨⟨_, hb, _⟩, _⟩ => hb) fun _ _ => rfl⟩
  | sta => exact ⟨_, rfl, .copyToA⟩
  | stb => exact ⟨_, rfl, .copyToB⟩
  | ldm imm => exact execLdmWith_effect
  | mst => exact execMstWith_effect
  | mld => exact execMldWith_effect hl
  | psh => exact execPshWith_effect
  | pop => exact execPopWith_effect
  | add => exact ⟨_, rfl, .sumOrDifference (by decide)⟩
  | sub => exact ⟨_, rfl, .sumOrDifference (by decide)⟩
  | mul => exact finish_effect hl (by decide) rfl
  | div => exact execDivWith_effect hl
  | exp => exact execExpWith_effect hl
  | jmp => exact jumpToC_effect rfl fun hc => if_pos hc
  | jmz => exact jumpToCIf_effect (i := .jmz) (by decide) fun hz hc => if_pos ⟨hz, hc⟩
  | jmu => exact jumpToCIf_effect (i := .jmu) (by decide) fun hu hc => if_pos ⟨hu, hc⟩
  | jmo => exact jumpToCIf_effect (i := .jmo) (by decide) fun ho hc => if_pos ⟨ho, hc⟩
  | hlt => exact ⟨_, rfl, .halt⟩

end

theorem exec_effect (i : Instr) (s : State) : HasEffect Config.default s i (exec i s) := by
  rw [exec_eq_execWith]
  exact execWith_effect Config.default_legal i s

theorem effect_of_execWith {cfg : Config} (hl : cfg.Legal) {i : Instr} {s t : State}
    (h : execWith cfg i s = .next t) : Effect cfg s i t := by
  obtain ⟨t', ht, he⟩ := execWith_effect hl i s
  rw [ht] at h
  cases h
  exact he

theorem effect_of_exec {i : Instr} {s t : State} (h : exec i s = .next t) : Effect Config.default s i t :=
  effect_of_execWith Config.default_legal (exec_eq_execWith i s ▸ h)

end Sys2Proof.Machine

namespace Sys2Proof.Machine

/-! ### The invariant, operation by operation (10_state.md sections 1 to 4, 6) -/

section
variable {cfg : Config} {s : State}

theorem State.Inv.setRun (h : s.Inv cfg) (r : Run) : (s.setRun r).Inv cfg := h

theorem State.Inv.setPc (h : s.Inv cfg) {t : Nat} (ht : t ≤ cfg.memTop + 1 ∨ t ≤ cfg.valMax.toNat) :
    (s.setPc t).Inv cfg := by
  obtain ⟨hregs, hflags, -, hrest⟩ := h
  exact ⟨hregs, hflags, le_max_iff.mpr ht, hrest⟩

theorem State.Inv.setSp (h : s.Inv cfg) {t : Nat} (ht : t ≤ cfg.stackTop + 1) : (s.setSp t).Inv cfg := by
  obtain ⟨hregs, hflags, hpc, -, hrest⟩ := h
  exact ⟨hregs, hflags, hpc, ht, hrest⟩

theorem State.Inv.writeReg (h : s.Inv cfg) (r : Reg) {v : Int} (hv : InV cfg v) : (s.writeReg r v).Inv cfg := by
  obtain ⟨⟨ha, hb, hc⟩, hrest⟩ := h
  cases r with
  | A => exact ⟨⟨hv, hb, hc⟩, hrest⟩
  | B => exact ⟨⟨ha, hv, hc⟩, hrest⟩
  | C => exact ⟨⟨ha, hb, hv⟩, hrest⟩

/-- A number is at most one of zero, negative and positive (44_arithmetic.md R112). -/
theorem State.flagsExclusive_setFlags (s : State) (r : Int) : (s.setFlags r).FlagsExclusive := by
  simp only [State.FlagsExclusive, State.setFlags_z, State.setFlags_u, State.setFlags_o, decide_eq_true_eq]
  omega

theorem State.Inv.setFlags (h : s.Inv cfg) (r : Int) : (s.setFlags r).Inv cfg := by
  obtain ⟨hregs, -, hrest⟩ := h
  exact ⟨hregs, s.flagsExclusive_setFlags r, hrest⟩

theorem Memory.inRange_write {top a : Nat} {v fill : Int} {m : Memory} (h : Memory.InRange cfg top m) (ha : a ≤ top)
    (hv : InV cfg v) : Memory.InRange cfg top (Memory.write fill m a v) := by
  intro e he
  rcases Memory.mem_write he with he | rfl
  · exact h e he
  · exact ⟨ha, hv⟩

theorem State.Inv.memWrite (h : s.Inv cfg) {a : Nat} {v : Int} (ha : a ≤ cfg.memTop) (hv : InV cfg v) :
    (s.memWrite cfg a v).Inv cfg := by
  obtain ⟨hregs, hflags, hpc, hsp, hmem, hstack, hmemIn, hstackIn⟩ := h
  exact ⟨hregs, hflags, hpc, hsp, Memory.wf_write a v hmem, hstack, Memory.inRange_write hmemIn ha hv, hstackIn⟩

theorem State.Inv.stackWrite (h : s.Inv cfg) {a : Nat} {v : Int} (ha : a ≤ cfg.stackTop) (hv : InV cfg v) :
    (s.stackWrite cfg a v).Inv cfg := by
  obtain ⟨hregs, hflags, hpc, hsp, hmem, hstack, hmemIn, hstackIn⟩ := h
  exact ⟨hregs, hflags, hpc, hsp, hmem, Memory.wf_write a v hstack, hmemIn, Memory.inRange_write hstackIn ha hv⟩

/-- What an instruction leaves meets the invariant, wherever it is fetched from a cell of program memory. -/
theorem Effect.keeps_inv (hl : cfg.Legal) {i : Instr} {t : State} (he : Effect cfg s i t) (h : s.Inv cfg)
    (hpc : s.pc ≤ cfg.memTop) : t.Inv cfg := by
  have hnext : s.pc + 1 ≤ cfg.memTop + 1 := Nat.succ_le_succ hpc
  have hparts := h
  obtain ⟨⟨-, hb, hc⟩, -, -, hsp, -, -, -, hstackIn⟩ := hparts
  cases he with
  | fault | halt => exact h.setRun _
  | jump => exact h.setPc (.inr (Int.toNat_le_toNat hc.2))
  | skip => exact h.setPc (.inl hnext)
  | copyToA => exact (h.writeReg .A hc).setPc (.inl hnext)
  | copyToB => exact (h.writeReg .B hc).setPc (.inl hnext)
  | load _ hv => exact (h.writeReg .C (hv h)).setPc (.inl hnext)
  | loadImmediate htop => exact (h.writeReg .C (sat_inV hl _)).setPc (.inl (Nat.succ_le_succ htop))
  | sumOrDifference => exact ((h.writeReg .C (sat_inV hl _)).setFlags _).setPc (.inl hnext)
  | store haddr => exact (h.memWrite (memAddress_eq_some.mp haddr).2 hb).setPc (.inl hnext)
  | push hroom => exact ((h.stackWrite hroom hc).setSp (Nat.succ_le_succ hroom)).setPc (.inl hnext)
  | pop =>
    exact ((h.setSp ((Nat.sub_le _ _).trans hsp)).writeReg .C (Memory.read_inV hl hstackIn _)).setPc (.inl hnext)

theorem stepWith_keeps_inv (hl : cfg.Legal) {t : State} (h : s.Inv cfg) (hstep : stepWith cfg s = .next t) :
    t.Inv cfg := by
  obtain ⟨-, ⟨-, rfl⟩ | ⟨hpc, i, -, -, hex⟩ | ⟨-, -, rfl⟩⟩ := engineStep_cases hl hstep
  · exact h.setRun _
  · exact (effect_of_execWith hl hex).keeps_inv hl h hpc
  · exact h.setRun _

theorem step_keeps_inv {s t : State} (h : s.Inv Config.default) (hstep : step s = .next t) : t.Inv Config.default :=
  stepWith_keeps_inv Config.default_legal h ((step_eq_stepWith s).symm.trans hstep)

theorem resetWith_inv (hl : cfg.Legal) : (State.resetWith cfg).Inv cfg := by
  have hzero : InV cfg 0 := by
    rw [hl.inV_iff]
    decide
  have hflags : (State.resetWith cfg).FlagsExclusive := by simp [State.resetWith]
  refine ⟨⟨hzero, hzero, hzero⟩, hflags, ?_, ?_, rfl, rfl, List.forall_mem_nil _, List.forall_mem_nil _⟩
  · exact (hl.resetVector_le.trans (Nat.le_succ _)).trans (le_max_left _ _)
  · exact hl.spReset_eq.trans_le (Nat.zero_le _)

end

/-- Settles O6: both memories are empty, and RESET_VECTOR is an address of program memory. -/
theorem resetMeetsTheInvariant : Obligations.ResetMeetsTheInvariant :=
  ⟨fun _ hl => resetWith_inv hl, resetWith_inv Config.default_legal⟩

/-- Settles O7: the guard and the last-cell fault write `run` alone, and each effect of an instruction keeps the
invariant. -/
theorem everyStepKeepsTheInvariant : Obligations.EveryStepKeepsTheInvariant :=
  ⟨fun _ _ => step_keeps_inv, fun _ hl _ _ => stepWith_keeps_inv hl⟩

/-! ### Runs -/

/-- What every step keeps, every run keeps. -/
theorem runFor_induction {P : State → Prop} (hstep : ∀ s t, P s → step s = .next t → P t) {s : State} (h : P s)
    (n : Nat) : P (runFor n s) := by
  induction n generalizing s with
  | zero => exact h
  | succ n ih =>
    by_cases hs : ∃ t, step s = .next t
    · obtain ⟨t, ht⟩ := hs
      rw [runFor_succ ht]
      exact ih (hstep s t h ht)
    · rw [runFor_of_not_next (not_exists.mp hs)]
      exact h

/-! ### The launch (70_reset_and_hazards.md R173 to R175) -/

/-- A Load that is performed writes one valid cell with a value of V, before Start. -/
theorem Session.load_eq_next {cfg : Config} {h h' : Session} {addr v : Int} (hload : h.load cfg addr v = .next h') :
    ∃ a, memAddress cfg addr = some a ∧ InV cfg v ∧ h' = { h with machine := h.machine.memWrite cfg a v } := by
  unfold Session.load at hload
  cases hp : h.phase with
  | started =>
    rw [hp] at hload
    cases hload
  | loading =>
    rw [hp] at hload
    cases ha : memAddress cfg addr with
    | none =>
      rw [ha] at hload
      cases hload
    | some a =>
      rw [ha] at hload
      dsimp only at hload
      split_ifs at hload with hv
      cases hload
      exact ⟨a, rfl, hv, rfl⟩

theorem Session.loadAll_keeps_inv {cfg : Config} {h h' : Session} {loads : List (Int × Int)}
    (hloads : h.loadAll cfg loads = .next h') (hinv : h.machine.Inv cfg) : h'.machine.Inv cfg := by
  induction loads generalizing h with
  | nil =>
    cases hloads
    exact hinv
  | cons p loads ih =>
    rw [Session.loadAll] at hloads
    split at hloads
    next h1 hload =>
      obtain ⟨a, ha, hv, rfl⟩ := Session.load_eq_next hload
      exact ih hloads (hinv.memWrite (memAddress_eq_some.mp ha).2 hv)
    next => cases hloads
    next => cases hloads

theorem Session.start_machine {h h' : Session} (hstart : h.start = .next h') : h'.machine = h.machine := by
  unfold Session.start at hstart
  split at hstart
  · cases hstart
  · cases hstart
    rfl

theorem Session.launch_inv {cfg : Config} (hl : cfg.Legal) {h h' : Session} {loads : List (Int × Int)}
    (hlaunch : h.launch cfg loads = .next h') : h'.machine.Inv cfg := by
  unfold Session.launch at hlaunch
  split at hlaunch
  next h1 hloads =>
    rw [Session.start_machine hlaunch]
    exact Session.loadAll_keeps_inv hloads (resetWith_inv hl)
  next => cases hlaunch
  next => cases hlaunch

/-- Settles O8: the launch meets the invariant, every step keeps it, and a memory whose entries are values of V reads
values of V. -/
theorem noRegisterOrCellEverLeavesTheRange : Obligations.NoRegisterOrCellEverLeavesTheRange := by
  intro h h' loads hlaunch n
  have hinv : (runFor n h'.machine).Inv Config.default :=
    runFor_induction (fun _ _ => step_keeps_inv) (Session.launch_inv Config.default_legal hlaunch) n
  obtain ⟨⟨ha, hb, hc⟩, -, -, -, -, -, hmem, hstack⟩ := hinv
  exact ⟨ha, hb, hc, Memory.read_inV Config.default_legal hmem, Memory.read_inV Config.default_legal hstack⟩

/-- The value last loaded at a cell, if any. -/
def lastLoaded (loads : List (Int × Int)) (a : Nat) : Option Int :=
  (loads.reverse.find? fun p => decide (p.1 = (a : Int))).map Prod.snd

/-- A Load counts where no later one is for the same cell. -/
theorem lastLoaded_cons (p : Int × Int) (loads : List (Int × Int)) (a : Nat) :
    lastLoaded (p :: loads) a = (lastLoaded loads a).or (if p.1 = (a : Int) then some p.2 else none) := by
  rw [lastLoaded, List.reverse_cons, List.find?_append, Option.map_or]
  by_cases hp : p.1 = (a : Int) <;> simp [lastLoaded, hp]

/-- Loads at valid addresses with values of V are all performed, and write program memory alone. -/
theorem Session.loadAll_of_valid {cfg : Config} {loads : List (Int × Int)}
    (hvalid : ∀ p ∈ loads, 0 ≤ p.1 ∧ p.1 ≤ cfg.memTop ∧ InV cfg p.2) (m : State) :
    ∃ m', (Session.mk .loading m).loadAll cfg loads = .next ⟨.loading, m'⟩ ∧ m' = { m with mem := m'.mem } ∧
      ∀ a, m'.memRead cfg a = (lastLoaded loads a).getD (m.memRead cfg a) := by
  induction loads generalizing m with
  | nil => exact ⟨m, rfl, rfl, fun _ => rfl⟩
  | cons p loads ih =>
    obtain ⟨⟨hp0, hptop, hpv⟩, hothers⟩ := List.forall_mem_cons.mp hvalid
    obtain ⟨addr, v⟩ := p
    obtain ⟨a, rfl⟩ := Int.eq_ofNat_of_zero_le hp0
    have ha : memAddress cfg (a : Int) = some a := memAddress_eq_some.mpr ⟨rfl, Int.ofNat_le.mp hptop⟩
    obtain ⟨m', hall, hframe, hread⟩ := ih hothers (m.memWrite cfg a v)
    refine ⟨m', ?_, hframe, fun x => ?_⟩
    · simp only [Session.loadAll, Session.load, ha, if_pos hpv]
      exact hall
    · rw [hread, lastLoaded_cons]
      by_cases hx : x = a
      · subst hx
        cases lastLoaded loads x <;> simp
      · rw [State.memRead_memWrite_of_ne _ _ _ hx, if_neg fun hax => hx (Int.ofNat_inj.mp hax).symm, Option.or_none]

/-- Settles O53: Reset leaves the loading phase, every Load is performed, and Start is accepted. -/
theorem theLaunchStateIsResetPlusTheLoads : Obligations.TheLaunchStateIsResetPlusTheLoads := by
  intro cfg h loads hvalid
  obtain ⟨m, hall, hframe, hread⟩ := Session.loadAll_of_valid hvalid (State.resetWith cfg)
  refine ⟨⟨.started, m⟩, ?_, rfl, hframe, hread⟩
  rw [Session.launch, Session.reset, hall]
  rfl

/-- Settles O54: each operation's own test, phase by phase. -/
theorem hostOperationsOutOfOrderAreRefused : Obligations.HostOperationsOutOfOrderAreRefused := by
  intro cfg m addr v
  refine ⟨rfl, fun hout => ?_, fun h0 htop hv => ?_, rfl, rfl, fun p hrun => ?_, fun p hrun => ?_⟩
  · rw [Session.load, memAddress_eq_none.mpr hout]
  · obtain ⟨a, rfl⟩ := Int.eq_ofNat_of_zero_le h0
    rw [Session.load, memAddress_eq_some.mpr ⟨rfl, Int.ofNat_le.mp htop⟩]
    exact if_neg hv
  · rw [Session.observe, hrun]
  · unfold Session.observe
    cases hr : m.run with
    | running => exact absurd hr hrun
    | halted | outOfRange | faulted => rfl

end Sys2Proof.Machine

namespace Sys2Proof.Machine

/-! ### What the tables of jumps, faults and next pc say of each effect (60_exceptions.md R152; 30_encoding.md R59) -/

section
variable {cfg : Config} {s t : State} {i : Instr} {cause : Cause}

/-- The table gives a taken jump a cause for a negative target alone. -/
theorem faultCause_eq_none_of_jump (h : jumpTaken i s = true) (hc : 0 ≤ s.c) : faultCause cfg i s = none := by
  have hneg : ¬s.c < 0 := not_lt.mpr hc
  cases i with
  | jmp => exact if_neg hneg
  | jmz | jmu | jmo => exact if_neg fun hf => hneg hf.2
  | _ => cases h

/-- A jump that is not taken does not look at its target (45_control_flow.md R136). -/
theorem faultCause_eq_none_of_skip (hi : i ∈ [Instr.nop, .jmz, .jmu, .jmo]) (h : jumpTaken i s = false) :
    faultCause cfg i s = none := by
  have hnot : ¬jumpTaken i s = true := by simp [h]
  cases i with
  | nop => rfl
  | jmz | jmu | jmo => exact if_neg fun hf => hnot hf.1
  | _ => simp at hi

/-- Under the default policies an effect is the fault of the table's cause, or the table gives none. -/
theorem Effect.fault_or_none (he : Effect Config.default s i t) :
    (∃ cause, faultCause Config.default i s = some cause ∧ t = s.setRun (.faulted cause)) ∨
      faultCause Config.default i s = none := by
  cases he with
  | fault h => exact .inl ⟨_, h, rfl⟩
  | jump ht hc => exact .inr (faultCause_eq_none_of_jump ht hc)
  | skip hi ht => exact .inr (faultCause_eq_none_of_skip hi ht)
  | load _ _ hf => exact .inr (hf rfl rfl)
  | loadImmediate htop => exact .inr (if_neg (not_lt.mpr htop))
  | sumOrDifference hi =>
    simp only [List.mem_cons, List.not_mem_nil, or_false] at hi
    rcases hi with rfl | rfl <;> exact .inr rfl
  | store haddr =>
    refine .inr (if_neg fun hout => ?_)
    rw [memAddress_eq_none.mpr hout] at haddr
    cases haddr
  | push hroom => exact .inr (if_neg (not_lt.mpr hroom))
  | pop hne => exact .inr (if_neg hne)
  | halt | copyToA | copyToB => exact .inr rfl

/-- Only HLT and faults write `run` (R78, R151). -/
theorem Effect.run_eq (he : Effect cfg s i t) (hf : faultCause cfg i s = none) (hi : i ≠ .hlt) : t.run = s.run := by
  cases he with
  | fault h =>
    rw [hf] at h
    cases h
  | halt => exact absurd rfl hi
  | _ => rfl

theorem nextPc_of_jumpTaken (h : jumpTaken i s = true) : nextPc i s = s.c.toNat := by
  cases i with
  | jmp => rfl
  | jmz | jmu | jmo => exact if_pos h
  | _ => cases h

/-- Without a jump, pc moves past the instruction's cells. -/
theorem nextPc_of_not_jumpTaken (h : jumpTaken i s = false) (hi : i ≠ .hlt) :
    nextPc i s = s.pc + i.mnemonic.length := by
  have hnot : ¬jumpTaken i s = true := by simp [h]
  cases i with
  | jmp => cases h
  | jmz | jmu | jmo => exact if_neg hnot
  | hlt => exact absurd rfl hi
  | _ => rfl

theorem nextPc_of_skip (hi : i ∈ [Instr.nop, .jmz, .jmu, .jmo]) (h : jumpTaken i s = false) :
    nextPc i s = s.pc + 1 := by
  rw [nextPc_of_not_jumpTaken h (by rintro rfl; simp at hi)]
  cases i with
  | nop | jmz | jmu | jmo => rfl
  | _ => simp at hi

/-- The one-cell instructions that write C only advance pc. -/
theorem nextPc_of_load (s : State) : ∀ i ∈ [Instr.lda, .ldb, .mld, .mul, .div, .exp], nextPc i s = s.pc + 1 := by
  simp [nextPc]

theorem nextPc_of_sumOrDifference (s : State) : ∀ i ∈ [Instr.add, .sub], nextPc i s = s.pc + 1 := by
  simp [nextPc]

theorem Effect.pc_eq (he : Effect cfg s i t) (hf : faultCause cfg i s = none) : t.pc = nextPc i s := by
  cases he with
  | fault h =>
    rw [hf] at h
    cases h
  | jump ht => exact (nextPc_of_jumpTaken ht).symm
  | skip hi ht => exact (nextPc_of_skip hi ht).symm
  | load hi => exact (nextPc_of_load s i hi).symm
  | sumOrDifference hi => exact (nextPc_of_sumOrDifference s i hi).symm
  | halt | copyToA | copyToB | loadImmediate | store | push | pop => rfl

end

/-! ### What no instruction does -/

/-- Settles O20: the fault is the one effect that the table's cause allows, and the others leave `run`. -/
theorem faultsFollowTheTableAndArePrecise : Obligations.FaultsFollowTheTableAndArePrecise := by
  intro i s
  obtain ⟨t, ht, he⟩ := exec_effect i s
  refine ⟨fun cause hc => ?_, fun hnone => ⟨t, ht, he.run_eq hnone⟩⟩
  rcases he.fault_or_none with ⟨cause', hc', rfl⟩ | hnone
  · rw [hc] at hc'
    cases hc'
    exact ht
  · rw [hc] at hnone
    cases hnone

/-- Settles O21: the effects write pc as the control table says. -/
theorem pcFollowsTheControlTable : Obligations.PcFollowsTheControlTable := by
  intro i s hnone
  obtain ⟨t, ht, he⟩ := exec_effect i s
  exact ⟨t, ht, he.pc_eq hnone⟩

/-- The mnemonics that 10_state.md section 1 lists as writers of C. -/
def writersOfC : List Mnemonic := [.lda, .ldb, .ldm, .mld, .pop, .add, .sub, .mul, .div, .exp]

theorem mnemonic_of_load : ∀ i ∈ [Instr.lda, .ldb, .mld, .mul, .div, .exp], i.mnemonic ∈ writersOfC := by decide

theorem mnemonic_of_sumOrDifference : ∀ i ∈ [Instr.add, .sub], i.mnemonic ∈ writersOfC := by decide

/-- Settles O22: of the effects, only those of STA and STB write A and B, and those that write C belong to the ten
instructions. -/
theorem registersAreWrittenOnlyByTheirInstructions : Obligations.RegistersAreWrittenOnlyByTheirInstructions := by
  intro i s t h
  cases effect_of_exec h with
  | copyToA => exact ⟨fun hi => absurd rfl hi, fun _ => rfl, fun _ => rfl⟩
  | copyToB => exact ⟨fun _ => rfl, fun hi => absurd rfl hi, fun _ => rfl⟩
  | load hi => exact ⟨fun _ => rfl, fun _ => rfl, fun hm => absurd (mnemonic_of_load i hi) hm⟩
  | sumOrDifference hi => exact ⟨fun _ => rfl, fun _ => rfl, fun hm => absurd (mnemonic_of_sumOrDifference i hi) hm⟩
  | loadImmediate | pop => exact ⟨fun _ => rfl, fun _ => rfl, fun hm => absurd (by simp [Instr.mnemonic]) hm⟩
  | fault | halt | jump | skip | store | push => exact ⟨fun _ => rfl, fun _ => rfl, fun _ => rfl⟩

/-- Settles O23: the memories are written by the effects of MST and PSH alone, at the address each computes, and sp by
those of PSH and POP. -/
theorem memoriesAndSpAreWrittenOnlyByTheirInstructions :
    Obligations.MemoriesAndSpAreWrittenOnlyByTheirInstructions := by
  intro i s t h
  cases effect_of_exec h with
  | @store addr haddr =>
    refine ⟨fun hi => absurd rfl hi, fun _ a ha x hx => ?_, fun _ _ => rfl, nofun, fun _ _ => rfl⟩
    have haddr_eq : addr = a := Option.some.inj (haddr.symm.trans ha)
    exact State.memRead_memWrite_of_ne _ _ _ (haddr_eq ▸ hx)
  | push =>
    exact ⟨fun _ _ => rfl, nofun, fun hi => absurd rfl hi,
      fun _ x hx => State.stackRead_stackWrite_of_ne _ _ _ hx, fun hi => absurd rfl hi⟩
  | pop => exact ⟨fun _ _ => rfl, nofun, fun _ _ => rfl, nofun, fun _ hi => absurd rfl hi⟩
  | fault | halt | jump | skip | copyToA | copyToB | load | loadImmediate | sumOrDifference =>
    exact ⟨fun _ _ => rfl, fun _ _ _ _ _ => rfl, fun _ _ => rfl, fun _ _ _ => rfl, fun _ _ => rfl⟩

end Sys2Proof.Machine

namespace Sys2Proof.Machine

/-! ### The saturating-range function (44_arithmetic.md section 1) -/

section
variable {cfg : Config}

theorem sat_eq_zero_iff (hl : cfg.Legal) (n : Int) : sat cfg n = 0 ↔ n = 0 := by
  have hn := sat_eq hl n
  split_ifs at hn <;> omega

theorem sat_pos_iff (hl : cfg.Legal) (n : Int) : 0 < sat cfg n ↔ 0 < n := by
  rw [sat_eq hl]
  split_ifs <;> omega

theorem sat_neg_iff (hl : cfg.Legal) (n : Int) : sat cfg n < 0 ↔ n < 0 := by
  rw [sat_eq hl]
  split_ifs <;> omega

theorem sat_of_ge (hl : cfg.Legal) {n : Int} (h : 65535 ≤ n) : sat cfg n = 65535 := by
  rw [sat_eq hl]
  split_ifs <;> omega

theorem sat_of_le (hl : cfg.Legal) {n : Int} (h : n ≤ -65535) : sat cfg n = -65535 := by
  rw [sat_eq hl]
  split_ifs <;> omega

theorem sat_mono (hl : cfg.Legal) {m n : Int} (h : m ≤ n) : sat cfg m ≤ sat cfg n := by
  rw [sat_eq hl, sat_eq hl]
  split_ifs <;> omega

theorem sat_neg (hl : cfg.Legal) (n : Int) : sat cfg (-n) = -sat cfg n := by
  rw [sat_eq hl, sat_eq hl]
  split_ifs <;> omega

end

/-- Settles O39, property by property, from the definition in numbers. -/
theorem satClampsToTheRange : Obligations.SatClampsToTheRange := by
  intro cfg hl
  exact ⟨fun _ h => sat_of_ge hl h.le, fun _ h => sat_of_le hl h.le,
    fun _ hlow hhigh => sat_of_inV (hl.inV_iff.mpr ⟨hlow, hhigh⟩), sat_inV hl, fun _ _ => sat_mono hl, sat_neg hl,
    sat_eq_zero_iff hl, fun n => ⟨sat_pos_iff hl n, sat_neg_iff hl n⟩, fun n => sat_of_inV (sat_inV hl n)⟩

/-! ### The flags (10_state.md section 2; 44_arithmetic.md section 2) -/

/-- A number is exactly one of zero, negative and positive. -/
theorem State.exactlyOneFlag_setFlags (s : State) (r : Int) : (s.setFlags r).ExactlyOneFlag := by
  refine ⟨s.flagsExclusive_setFlags r, ?_⟩
  simp only [State.setFlags_z, State.setFlags_u, State.setFlags_o, decide_eq_true_eq]
  omega

theorem State.exactlyOneFlag_setPc {s : State} {t : Nat} : (s.setPc t).ExactlyOneFlag ↔ s.ExactlyOneFlag := Iff.rfl

theorem State.exactlyOneFlag_congr {s t : State} (h : t.z = s.z ∧ t.u = s.u ∧ t.o = s.o) :
    t.ExactlyOneFlag ↔ s.ExactlyOneFlag := by
  obtain ⟨hz, hu, ho⟩ := h
  simp only [State.ExactlyOneFlag, State.FlagsExclusive, hz, hu, ho]

/-- What ADD and SUB answer for the exact result `x`: the flags classify the saturated result, and so the exact one. -/
theorem finishWithFlags_flags {cfg : Config} (hl : cfg.Legal) (x : Int) (s : State) :
    ∃ t, finishWithFlags cfg x s = .next t ∧ t.c = sat cfg x ∧ t.ExactlyOneFlag ∧
      (t.z = true ↔ t.c = 0) ∧ (t.u = true ↔ t.c < 0) ∧ (t.o = true ↔ t.c > 0) ∧
      (t.z = true ↔ x = 0) ∧ (t.u = true ↔ x < 0) ∧ (t.o = true ↔ x > 0) := by
  refine ⟨_, finishWithFlags_eq cfg x s, rfl,
    State.exactlyOneFlag_setPc.mpr (State.exactlyOneFlag_setFlags _ _), ?_⟩
  simp [sat_eq_zero_iff hl, sat_neg_iff hl, sat_pos_iff hl]

/-- Only the effect of ADD and SUB writes flags, and it leaves exactly one of them true. -/
theorem Effect.flags {cfg : Config} {s t : State} {i : Instr} (he : Effect cfg s i t) :
    (t.z = s.z ∧ t.u = s.u ∧ t.o = s.o) ∨ (i ∈ [Instr.add, .sub] ∧ t.ExactlyOneFlag ∧ t.run = s.run) := by
  cases he with
  | sumOrDifference hi => exact .inr ⟨hi, State.exactlyOneFlag_setPc.mpr (State.exactlyOneFlag_setFlags _ _), rfl⟩
  | fault | halt | jump | skip | copyToA | copyToB | load | loadImmediate | store | push | pop =>
    exact .inl ⟨rfl, rfl, rfl⟩

/-- Settles O24: ADD and SUB share the ending that classifies the result, and no other effect writes a flag. -/
theorem flagsFollowTheSaturatedSumOrDifferenceOnly : Obligations.FlagsFollowTheSaturatedSumOrDifferenceOnly := by
  refine ⟨fun s => finishWithFlags_flags Config.default_legal (s.a + s.b) s,
    fun s => finishWithFlags_flags Config.default_legal (s.a - s.b) s, ?_⟩
  intro i s t h hother
  rcases (effect_of_exec h).flags with hkeep | ⟨hi, -, hrun⟩
  · exact hkeep
  · rcases hother with ⟨hadd, hsub⟩ | hne
    · simp [hadd, hsub] at hi
    · exact absurd hrun hne

/-- A step keeps the flags, or it executes ADD or SUB and leaves exactly one of them true. -/
theorem step_flags {s t : State} (h : step s = .next t) :
    (t.z = s.z ∧ t.u = s.u ∧ t.o = s.o) ∨
      ((nextInstr s = some .add ∨ nextInstr s = some .sub) ∧ t.ExactlyOneFlag) := by
  obtain ⟨-, ⟨i, hi, hex⟩ | ⟨-, -, rfl⟩ | ⟨-, -, -, rfl⟩⟩ := step_cases h
  · rcases (effect_of_exec hex).flags with hkeep | ⟨hmem, hone, -⟩
    · exact .inl hkeep
    · rw [List.mem_pair] at hmem
      rcases hmem with rfl | rfl
      · exact .inr ⟨.inl hi, hone⟩
      · exact .inr ⟨.inr hi, hone⟩
  · exact .inl ⟨rfl, rfl, rfl⟩
  · exact .inl ⟨rfl, rfl, rfl⟩

/-- Settles O25: every step keeps the flags or, executing ADD or SUB, sets exactly one. -/
theorem exactlyOneFlagIsTrueForEver : Obligations.ExactlyOneFlagIsTrueForEver := by
  refine ⟨fun s t h hone => ?_, fun s t h hi => ?_, fun s t h hadd hsub => ?_⟩
  · rcases step_flags h with hkeep | ⟨-, hone'⟩
    · exact (State.exactlyOneFlag_congr hkeep).mpr hone
    · exact hone'
  · have hex (x : Int) (hx : finishWithFlags Config.default x s = .next t) : t.ExactlyOneFlag := by
      obtain ⟨t', ht', -, hone, -⟩ := finishWithFlags_flags Config.default_legal x s
      rw [ht'] at hx
      cases hx
      exact hone
    rcases hi with hi | hi
    · exact hex _ ((step_of_nextInstr hi).symm.trans h)
    · exact hex _ ((step_of_nextInstr hi).symm.trans h)
  · rcases step_flags h with hkeep | ⟨hi, -⟩
    · exact hkeep
    · exact absurd hi (not_or.mpr ⟨hadd, hsub⟩)

/-! ### LDM, memory and stack, instruction by instruction -/

/-- Settles O30: LDM's own test splits at MEM_TOP. -/
theorem ldmLoadsItsImmediate : Obligations.LdmLoadsItsImmediate := by
  intro imm s
  refine ⟨fun htop => ?_, fun htop => ?_⟩
  · exact (exec_eq_execWith _ s).trans (execWith_ldm_below_top htop imm)
  · exact (execLdmWith_eq Config.default imm s).trans (if_pos htop)

theorem memAddress_toNat {cfg : Config} {v : Int} (h0 : 0 ≤ v) (htop : v ≤ cfg.memTop) :
    memAddress cfg v = some v.toNat := if_pos ⟨h0, htop⟩

/-- Settles O33: the operand form gives the one cell written, and the read laws of memory the others. -/
theorem mstStoresBAtTheAddressInC : Obligations.MstStoresBAtTheAddressInC := by
  refine ⟨fun s h0 htop => ?_, fun s hout => ?_⟩
  · have haddr := memAddress_toNat h0 htop
    exact ⟨haddr, _, execMstWith_of_some haddr, rfl, State.memRead_memWrite_self _ s _ _,
      fun x hx => State.memRead_memWrite_of_ne _ s _ hx⟩
  · exact execMstWith_of_none (memAddress_eq_none.mpr hout)

/-- Settles O34: the operand form gives the cell read. -/
theorem mldLoadsTheCellBAddresses : Obligations.MldLoadsTheCellBAddresses := by
  refine ⟨fun s addr hb htop => ?_, fun s hout => ?_⟩
  · exact execMldWith_of_some (memAddress_eq_some.mpr ⟨hb.symm, htop⟩)
  · exact execMldWith_of_none (memAddress_eq_none.mpr hout)

theorem exec_psh_with_room {s : State} (h : s.sp ≤ Config.default.stackTop) :
    exec .psh s = .next (((s.stackWrite Config.default s.sp s.c).setSp (s.sp + 1)).setPc (s.pc + 1)) :=
  (execPshWith_eq Config.default s).trans (if_neg (not_lt.mpr h))

/-- Settles O35: PSH's own test splits at STACK_TOP, and the read laws of memory give the other cells. -/
theorem pshStoresCAtSpAndAdvancesSp : Obligations.PshStoresCAtSpAndAdvancesSp := by
  refine ⟨fun s hroom => ?_, fun s hfull => ?_⟩
  · exact ⟨_, exec_psh_with_room hroom, rfl, State.stackRead_stackWrite_self _ s _ _,
      fun x hx => State.stackRead_stackWrite_of_ne _ s _ hx⟩
  · exact (execPshWith_eq Config.default s).trans (if_pos hfull)

theorem exec_pop_nonempty {s : State} {n : Nat} (h : s.sp = n + 1) :
    exec .pop s = .next (((s.setSp n).writeReg .C (s.stackRead Config.default n)).setPc (s.pc + 1)) := by
  refine (execPopWith_eq Config.default s).trans ?_
  rw [if_neg (by omega), h, Nat.add_sub_cancel]

/-- Settles O36: POP's own test is whether sp is 0. -/
theorem popRetreatsSpAndLoadsC : Obligations.PopRetreatsSpAndLoadsC := by
  refine ⟨fun s n hsp => ?_, fun s hempty => ?_⟩
  · exact exec_pop_nonempty hsp
  · exact (execPopWith_eq Config.default s).trans (if_pos hempty)

/-! ### Control flow (45_control_flow.md) -/

/-- Settles O49: a jump gated on a false flag completes without a look at C. -/
theorem aConditionalJumpNotTakenOnlyAdvancesPc : Obligations.AConditionalJumpNotTakenOnlyAdvancesPc := by
  intro s
  have hskip {flag : Bool} (hf : flag = false) : jumpToCIf flag s = .next (s.setPc (s.pc + 1)) := by
    rw [hf, jumpToCIf_false, complete_eq]
  exact ⟨hskip, hskip, hskip⟩

/-- A jump whose condition holds is the shared jump to C. -/
theorem exec_of_jumpTaken {i : Instr} {s : State} (h : jumpTaken i s = true) : exec i s = jumpToC s := by
  cases i with
  | jmp => rfl
  | jmz | jmu | jmo => exact congrArg (jumpToCIf · s) h
  | _ => cases h

/-- Settles O50: the four jumps are one shared operation; past the top the guard of the next step ends the run. -/
theorem jumpTargetsOutsideMemory : Obligations.JumpTargetsOutsideMemory := by
  refine ⟨fun s i ht hc => ?_, fun s i ht hrun hc => ?_⟩
  · rw [exec_of_jumpTaken ht, jumpToC_of_neg hc]
    rfl
  · have hc0 : 0 ≤ s.c := (Int.natCast_nonneg _).trans hc.le
    have hpc : s.c.toNat > Config.default.memTop := Int.lt_toNat.mpr hc
    refine ⟨s.setPc s.c.toNat, ?_, rfl, step_past_top hrun hpc⟩
    rw [exec_of_jumpTaken ht, jumpToC_of_nonneg hc0]

/-- Settles O51: HLT is the one-cell halt, and no step is made from a machine that is not Running. -/
theorem hltHaltsAndKeepsPc : Obligations.HltHaltsAndKeepsPc :=
  ⟨encode_of_ne_ldm (by decide), halt_eq,
    fun s hhalt n => runFor_of_not_running (by rw [hhalt]; decide) n⟩

end Sys2Proof.Machine

namespace Sys2Proof.Machine

/-! ### What a step can do to run, pc and the stack -/

/-- An instruction faults by the table, or is HLT, or leaves `run`. -/
theorem exec_run_cases {i : Instr} {s t : State} (h : exec i s = .next t) :
    (∃ cause, faultCause Config.default i s = some cause ∧ t = s.setRun (.faulted cause)) ∨
    (i = .hlt ∧ t = s.setRun .halted) ∨
    (faultCause Config.default i s = none ∧ i ≠ .hlt ∧ t.run = s.run) := by
  have he := effect_of_exec h
  rcases he.fault_or_none with hfault | hnone
  · exact .inl hfault
  · by_cases hi : i = .hlt
    · subst hi
      cases h
      exact .inr (.inl ⟨rfl, rfl⟩)
    · exact .inr (.inr ⟨hnone, hi, he.run_eq hnone hi⟩)

/-- Settles O15: the ways a step goes, and for an instruction the ways it ends. -/
theorem aRunEndsInThreeWays : Obligations.ARunEndsInThreeWays := by
  intro s t h
  obtain ⟨hrun, ⟨i, hi, hex⟩ | ⟨-, hpc, rfl⟩ | ⟨-, hpc, hop, rfl⟩⟩ := step_cases h
  · obtain ⟨-, hpc, -⟩ := nextInstr_eq_some_iff.mp hi
    rcases exec_run_cases hex with ⟨cause, hc, rfl⟩ | ⟨rfl, rfl⟩ | ⟨-, -, hkeep⟩
    · exact .inr (.inr (.inr ⟨cause, rfl, hpc, .inl ⟨i, hi, hc⟩⟩))
    · exact .inr (.inl ⟨rfl, hi⟩)
    · exact .inl (hkeep.trans hrun)
  · exact .inr (.inr (.inl ⟨rfl, hpc⟩))
  · exact .inr (.inr (.inr ⟨_, rfl, hpc.le, .inr ⟨rfl, hpc, hop⟩⟩))

/-- A Running machine has a next state (R70). -/
theorem exists_step_of_running {s : State} (hrun : s.run = .running) : ∃ t, step s = .next t := by
  by_cases hpc : s.pc ≤ Config.default.memTop
  · rw [step_eq_stepWith]
    rcases decode_fetchCells Config.default_legal s with ⟨i, rest, hd⟩ | ⟨hd, -⟩
    · obtain ⟨t, ht, -⟩ := execWith_effect Config.default_legal i s
      exact ⟨t, (stepWith_of_decode hrun hpc hd).trans ht⟩
    · refine ⟨s.setRun (.faulted .immediateOutOfRange), ?_⟩
      rw [stepWith, engineStep_running hrun hpc, runFetched, hd]
      rfl
  · exact ⟨_, step_past_top hrun (not_le.mp hpc)⟩

/-- Settles O14: every instruction answers a next state, and the ended states answer none. -/
theorem aStepIsDefinedExactlyWhenRunning : Obligations.AStepIsDefinedExactlyWhenRunning := by
  intro s
  refine ⟨⟨fun ⟨t, ht⟩ => (step_cases ht).1, exists_step_of_running⟩, runFor_of_not_running⟩

/-- Every instruction that completes without a jump leaves pc in program memory or just past it: LDM has tested its
second cell (R95). -/
theorem pc_add_length_le {i : Instr} {s : State} (hf : faultCause Config.default i s = none)
    (hpc : s.pc ≤ Config.default.memTop) : s.pc + i.mnemonic.length ≤ Config.default.memTop + 1 := by
  cases i with
  | ldm imm =>
    have htop : ¬s.pc + 1 > Config.default.memTop := fun h => by
      rw [faultCause, if_pos h] at hf
      cases hf
    exact Nat.succ_le_succ (not_lt.mp htop)
  | _ => exact Nat.succ_le_succ hpc

/-- A step that takes no jump and goes on Running moves pc forward, at most one past the top. -/
theorem step_advances {s t : State} (h : step s = .next t) (hjump : stepTakesJump s = false) (hrun : t.run = .running) :
    s.pc < t.pc ∧ t.pc ≤ Config.default.memTop + 1 := by
  obtain ⟨-, ⟨i, hi, hex⟩ | ⟨-, -, rfl⟩ | ⟨-, -, -, rfl⟩⟩ := step_cases h
  · obtain ⟨-, hpc, -⟩ := nextInstr_eq_some_iff.mp hi
    rcases exec_run_cases hex with ⟨cause, -, rfl⟩ | ⟨-, rfl⟩ | ⟨hnone, hhlt, -⟩
    · cases hrun
    · cases hrun
    · rw [stepTakesJump, hi] at hjump
      have hlen := i.mnemonic.length_pos
      have hle := pc_add_length_le hnone hpc
      rw [(effect_of_exec hex).pc_eq hnone, nextPc_of_not_jumpTaken hjump hhlt]
      omega
  · cases hrun
  · cases hrun

/-- The steps left below the top bound a run without taken jumps. -/
theorem runFor_ends_without_jumps {n : Nat} {s : State} (hpc : s.pc ≤ Config.default.memTop + 1)
    (hn : Config.default.memTop + 2 ≤ s.pc + n) (hjump : ∀ k, stepTakesJump (runFor k s) = false) :
    (runFor n s).run ≠ .running := by
  induction n generalizing s with
  | zero => omega
  | succ n ih =>
    by_cases hrun : s.run = .running
    · obtain ⟨t, ht⟩ := exists_step_of_running hrun
      rw [runFor_succ ht]
      by_cases hrun' : t.run = .running
      · obtain ⟨hlt, hle⟩ := step_advances ht (hjump 0) hrun'
        refine ih hle (by omega) fun k => ?_
        rw [← runFor_succ ht]
        exact hjump (k + 1)
      · rwa [runFor_of_not_running hrun']
    · rwa [runFor_of_not_running hrun]

/-- Settles O18: from pc, MEM_TOP + 2 - pc steps leave no room for another advance. -/
theorem aRunWithoutTakenJumpsEnds : Obligations.ARunWithoutTakenJumpsEnds := by
  intro s hpc hjump
  exact runFor_ends_without_jumps hpc (by omega) hjump

/-! ### Run-off (R82) -/

/-- A cell that holds no other opcode than NOP's executes as NOP. -/
theorem step_of_nop_cell {s : State} (hrun : s.run = .running) (hpc : s.pc ≤ Config.default.memTop)
    (hcell : ∀ m, m ≠ .nop → (Config.default.opc m : Int) ≠ s.memRead Config.default s.pc) :
    step s = .next (s.setPc (s.pc + 1)) := by
  have hd : decodeOpcode Config.default (sat Config.default (s.memRead Config.default s.pc)) = .nop := by
    by_contra hne
    have hop := (sat_eq_opc_iff Config.default_legal).mp (opc_of_decodeOpcode rfl hne).symm
    exact hcell _ hne hop.symm
  obtain ⟨rest, hdec⟩ := decode_fetchCells_nop Config.default_legal hd
  rw [step_eq_stepWith, stepWith_of_decode hrun hpc hdec, execWith_nop]

/-- `n` NOPs below the top, and the guard's step. -/
theorem runFor_nops_to_the_top {n : Nat} {s : State} (hrun : s.run = .running)
    (hn : s.pc + n = Config.default.memTop + 1)
    (hcells : ∀ a, s.pc ≤ a → a ≤ Config.default.memTop →
      ∀ m, m ≠ .nop → (Config.default.opc m : Int) ≠ s.memRead Config.default a) :
    runFor (n + 1) s = (s.setPc (Config.default.memTop + 1)).setRun .outOfRange := by
  induction n generalizing s with
  | zero =>
    have hstep := step_past_top hrun (by omega)
    rw [runFor_succ hstep, runFor_zero, ← hn]
    rfl
  | succ n ih =>
    have hstep := step_of_nop_cell hrun (by omega) (hcells s.pc le_rfl (by omega))
    rw [runFor_succ hstep]
    refine ih hrun ?_ fun a ha => hcells a ((Nat.le_succ _).trans ha)
    rw [State.setPc_pc]
    omega

/-- Settles O17, by induction on the cells left below the top. -/
theorem nopsToTheTopRunOffIntoOutOfRange : Obligations.NopsToTheTopRunOffIntoOutOfRange := by
  intro s hrun hpc hcells
  obtain ⟨n, hn⟩ := Nat.exists_eq_add_of_le hpc
  have hfuel : Config.default.memTop + 2 - s.pc = n + 1 := by omega
  rw [hfuel]
  exact runFor_nops_to_the_top hrun hn.symm hcells

/-! ### The push-pop law (43_stack.md R108) -/

/-- The stack and sp change by PSH and POP alone: PSH writes at the old sp, POP writes no cell. -/
theorem step_stack {s t : State} (h : step s = .next t) :
    (t.sp = s.sp ∧ t.stack = s.stack) ∨
    (nextInstr s = some .psh ∧ t.stack = Memory.write Config.default.fill s.stack s.sp s.c) ∨
    (nextInstr s = some .pop ∧ t.stack = s.stack) := by
  obtain ⟨-, ⟨i, hi, hex⟩ | ⟨-, -, rfl⟩ | ⟨-, -, -, rfl⟩⟩ := step_cases h
  · cases effect_of_exec hex with
    | push => exact .inr (.inl ⟨hi, rfl⟩)
    | pop => exact .inr (.inr ⟨hi, rfl⟩)
    | fault | halt | jump | skip | copyToA | copyToB | load | loadImmediate | sumOrDifference | store =>
      exact .inl ⟨rfl, rfl⟩
  · exact .inl ⟨rfl, rfl⟩
  · exact .inl ⟨rfl, rfl⟩

/-- No step writes a stack cell below sp. -/
theorem step_stackRead_below {s t : State} (h : step s = .next t) {n : Nat} (hn : n < s.sp) :
    t.stackRead Config.default n = s.stackRead Config.default n := by
  rcases step_stack h with ⟨-, hst⟩ | ⟨-, hst⟩ | ⟨-, hst⟩
  · rw [State.stackRead, hst, State.stackRead]
  · rw [State.stackRead, hst, Memory.read_write_of_ne _ _ _ (Nat.ne_of_lt hn), State.stackRead]
  · rw [State.stackRead, hst, State.stackRead]

theorem runFor_one_cases (s : State) : step s = .next (runFor 1 s) ∨ runFor 1 s = s := by
  by_cases h : ∃ t, step s = .next t
  · obtain ⟨t, ht⟩ := h
    exact .inl (by rw [runFor_succ ht, runFor_zero, ht])
  · exact .inr (runFor_of_not_next (not_exists.mp h) 1)

/-- A run's last step. -/
theorem runFor_add_one (k : Nat) (s : State) : runFor (k + 1) s = runFor 1 (runFor k s) := by
  induction k generalizing s with
  | zero => rfl
  | succ k ih =>
    by_cases h : ∃ t, step s = .next t
    · obtain ⟨t, ht⟩ := h
      rw [runFor_succ ht, runFor_succ ht, ih]
    · have hstay := runFor_of_not_next (not_exists.mp h)
      rw [hstay, hstay, hstay]

theorem runFor_stackRead_below {n k : Nat} {s : State} (h : ∀ j, j ≤ k → n < (runFor j s).sp) :
    (runFor k s).stackRead Config.default n = s.stackRead Config.default n := by
  induction k with
  | zero => rfl
  | succ k ih =>
    rw [← ih fun j hj => h j (Nat.le_succ_of_le hj), runFor_add_one]
    rcases runFor_one_cases (runFor k s) with hstep | hstay
    · exact step_stackRead_below hstep (h k (Nat.le_succ k))
    · rw [hstay]

theorem runFor_sp_eq {k : Nat} {s : State}
    (h : ∀ j, j < k → nextInstr (runFor j s) ≠ some .psh ∧ nextInstr (runFor j s) ≠ some .pop) :
    (runFor k s).sp = s.sp := by
  induction k with
  | zero => rfl
  | succ k ih =>
    rw [← ih fun j hj => h j (Nat.lt_succ_of_lt hj), runFor_add_one]
    obtain ⟨hpsh, hpop⟩ := h k (Nat.lt_succ_self k)
    rcases runFor_one_cases (runFor k s) with hstep | hstay
    · rcases step_stack hstep with ⟨hsp, -⟩ | ⟨hi, -⟩ | ⟨hi, -⟩
      · exact hsp
      · exact absurd hi hpsh
      · exact absurd hi hpop
    · rw [hstay]

/-- Settles O37: a run without PSH and POP is one in which sp stays above n; and while it does, no step writes the
pushed cell. -/
theorem pushThenPopRestoresCAndSp : Obligations.PushThenPopRestoresCAndSp := by
  intro s k hpsh hroom s1 hpop hrun
  have hs1 : s1 = ((s.stackWrite Config.default s.sp s.c).setSp (s.sp + 1)).setPc (s.pc + 1) :=
    runFor_succ ((step_of_nextInstr hpsh).trans (exec_psh_with_room hroom)) 0
  have hpushed : s1.stackRead Config.default s.sp = s.c := by
    rw [hs1]
    exact State.stackRead_stackWrite_self _ s _ _
  obtain ⟨habove, hsp⟩ : (∀ j, j ≤ k → s.sp < (runFor j s1).sp) ∧ (runFor k s1).sp = s.sp + 1 := by
    rcases hrun with hnone | hnested
    · have hconst : ∀ j, j ≤ k → (runFor j s1).sp = s.sp + 1 := fun j hj => by
        rw [runFor_sp_eq fun j' hj' => hnone j' (hj'.trans_le hj), hs1]
        rfl
      exact ⟨fun j hj => by rw [hconst j hj]; exact Nat.lt_succ_self _, hconst k le_rfl⟩
    · exact hnested
  have hkept : (runFor k s1).stackRead Config.default s.sp = s.c := (runFor_stackRead_below habove).trans hpushed
  exact ⟨_, (step_of_nextInstr hpop).trans (exec_pop_nonempty hsp), hkept, rfl, hkept⟩

/-! ### Self-modification (20_memory.md section 6) -/

/-- Settles O38: MST writes the cell after it, which the read law of memory gives the next fetch. -/
theorem aStoreIsSeenByTheNextFetch : Obligations.AStoreIsSeenByTheNextFetch := by
  intro s i hmst htop hc henc
  obtain ⟨hrun, -, -⟩ := nextInstr_eq_some_iff.mp hmst
  have hi : i.mnemonic ≠ .ldm := by
    intro h
    cases i with
    | ldm imm => simp [encode] at henc
    | _ => cases h
  have hb : s.b = Config.default.opc i.mnemonic := by
    rw [encode_of_ne_ldm hi] at henc
    exact (List.singleton_inj.mp henc).symm
  have haddr : memAddress Config.default s.c = some (s.pc + 1) := memAddress_eq_some.mpr ⟨hc.symm, htop⟩
  refine ⟨_, (step_of_nextInstr hmst).trans (execMstWith_of_some haddr), rfl, ?_⟩
  rw [step_eq_stepWith, exec_eq_execWith]
  refine stepWith_of_opcode Config.default_legal hi hrun htop ?_
  rw [← hb]
  exact State.memRead_memWrite_self _ s _ _

end Sys2Proof.Machine

namespace Sys2Proof.Machine

/-! ### SUB as a comparison (44_arithmetic.md R114) -/

/-- Settles O41: the shared ending that recomputes the flags, given the exact difference, whose sign `sat` keeps. -/
theorem subWritesTheSaturatedDifferenceAndCompares : Obligations.SubWritesTheSaturatedDifferenceAndCompares := by
  refine ⟨encode_of_ne_ldm (by decide), fun s => (finishWithFlags_eq Config.default (s.a - s.b) s).trans ?_⟩
  have hz : sat Config.default (s.a - s.b) = 0 ↔ s.a = s.b := by
    rw [sat_eq_zero_iff Config.default_legal, sub_eq_zero]
  have hu : sat Config.default (s.a - s.b) < 0 ↔ s.a < s.b := by
    rw [sat_neg_iff Config.default_legal, sub_neg]
  have ho : sat Config.default (s.a - s.b) > 0 ↔ s.a > s.b := by
    rw [gt_iff_lt, sat_pos_iff Config.default_legal, sub_pos]
  simp only [State.setFlags, hz, hu, ho]
  rfl

/-! ### DIV (R116 to R119) -/

section
variable {cfg : Config} {s : State}

theorem execDivWith_of_zero (hb : s.b = 0) : execDivWith cfg s = applyDivZero cfg s :=
  (execDivWith_eq cfg s).trans (if_pos hb)

theorem execDivWith_of_exact {q : Int} (hb : s.b ≠ 0) (hq : q * s.b = s.a) : execDivWith cfg s = finish cfg q s := by
  rw [execDivWith_eq, if_neg hb, ← hq, if_pos (Int.mul_emod_left q s.b), Int.mul_ediv_cancel q hb]

theorem execDivWith_of_inexact (hb : s.b ≠ 0) (hq : ∀ q : Int, q * s.b ≠ s.a) :
    execDivWith cfg s = applyInexact cfg ((s.a : Rat) / s.b) s := by
  have hmod : ¬s.a % s.b = 0 := fun h => hq _ (Int.ediv_mul_cancel (Int.dvd_of_emod_eq_zero h))
  rw [execDivWith_eq, if_neg hb, if_neg hmod]

/-- An exact quotient is no larger than its dividend. -/
theorem quotient_inV (hl : cfg.Legal) {q a b : Int} (hb : b ≠ 0) (hq : q * b = a) (ha : InV cfg a) : InV cfg q := by
  have habs : q.natAbs ≤ a.natAbs := by
    rw [← hq, Int.natAbs_mul]
    exact Nat.le_mul_of_pos_right _ (Int.natAbs_pos.mpr hb)
  rw [hl.inV_iff] at ha ⊢
  omega

end

/-- Settles O43: DIV's three cases, with the default policies' faults. -/
theorem divWritesTheExactQuotientOrFaults : Obligations.DivWritesTheExactQuotientOrFaults := by
  refine ⟨fun s q hb hq => ⟨?_, fun ha => ?_⟩, fun s hb => ?_, fun s hb hq => ?_⟩
  · exact (execDivWith_of_exact hb hq).trans (finish_eq _ q s)
  · exact sat_of_inV (quotient_inV Config.default_legal hb hq ha)
  · exact (execDivWith_of_zero hb).trans (applyDivZero_fault rfl s)
  · exact (execDivWith_of_inexact hb hq).trans (applyInexact_fault rfl _ s)

/-! ### EXP (R120, R121) -/

section
variable {cfg : Config} {s : State}

theorem execExpWith_of_natural {n : Nat} (hb : s.b = n) : execExpWith cfg s = finish cfg (s.a ^ n) s := by
  rw [execExpWith_eq, hb, if_pos (Int.natCast_nonneg n), Int.toNat_natCast]

theorem execExpWith_of_one (hb : s.b < 0) (ha : s.a = 1) : execExpWith cfg s = complete (s.writeReg .C 1) := by
  rw [execExpWith_eq, if_neg (not_le.mpr hb), if_pos ha]

theorem execExpWith_of_neg_one (hb : s.b < 0) (ha : s.a = -1) :
    execExpWith cfg s = complete (s.writeReg .C (if s.b % 2 = 0 then 1 else -1)) := by
  rw [execExpWith_eq, if_neg (not_le.mpr hb), if_neg (by omega), if_pos ha]

theorem execExpWith_of_zero (hb : s.b < 0) (ha : s.a = 0) : execExpWith cfg s = applyDivZero cfg s := by
  rw [execExpWith_eq, if_neg (not_le.mpr hb), if_neg (by omega), if_neg (by omega), if_pos ha]

theorem execExpWith_of_inexact (hb : s.b < 0) (ha : 2 ≤ s.a.natAbs) :
    execExpWith cfg s = applyInexact cfg (1 / (s.a : Rat) ^ s.b.natAbs) s := by
  have hexp : (-s.b).toNat = s.b.natAbs := by omega
  rw [execExpWith_eq, if_neg (not_le.mpr hb), if_neg (by omega), if_neg (by omega), if_neg (by omega), hexp]

end

/-- Settles O44: EXP's cases by the sign of B and by A, with the default policies' faults. -/
theorem expWritesTheExactPowerOrFaults : Obligations.ExpWritesTheExactPowerOrFaults := by
  refine ⟨fun s n hb => ?_, fun s hb ha => ?_, fun s hb ha heven => ?_, fun s hb ha hodd => ?_, fun s hb ha => ?_,
    fun s hb ha => ?_⟩
  · exact (execExpWith_of_natural hb).trans (finish_eq _ _ s)
  · exact execExpWith_of_one hb ha
  · refine (execExpWith_of_neg_one hb ha).trans ?_
    rw [if_pos (Int.even_iff.mp heven)]
    rfl
  · refine (execExpWith_of_neg_one hb ha).trans ?_
    rw [if_neg (Int.emod_two_ne_zero.mpr (Int.odd_iff.mp hodd))]
    rfl
  · exact (execExpWith_of_zero hb ha).trans (applyDivZero_fault rfl s)
  · exact (execExpWith_of_inexact hb ha).trans (applyInexact_fault rfl _ s)

/-- Settles O46: the same cases of DIV and EXP, with the other settings of the policies. -/
theorem theOtherPoliciesCompleteDivAndExp : Obligations.TheOtherPoliciesCompleteDivAndExp := by
  refine ⟨fun cfg s hz hb => ?_, fun cfg s hz ha hb => ?_, fun cfg s f hf hb hq => ?_, fun cfg s f hf hb ha => ?_⟩
  · exact (execDivWith_of_zero hb).trans (applyDivZero_saturate hz s)
  · refine (execExpWith_of_zero hb ha).trans ((applyDivZero_saturate hz s).trans ?_)
    rw [if_pos ha.ge]
    rfl
  · exact (execDivWith_of_inexact hb hq).trans (applyInexact_round hf _ s)
  · exact (execExpWith_of_inexact hb ha).trans (applyInexact_round hf _ s)

section
variable {cfg : Config}

/-- Above the range, a saturation before a multiplication cannot be seen after it. -/
theorem sat_sat_mul_of_gt (hl : cfg.Legal) {a : Int} (ha : 65535 < a) (x : Int) :
    sat cfg (sat cfg a * x) = sat cfg (a * x) := by
  rw [sat_of_ge hl ha.le]
  rcases lt_trichotomy x 0 with hx | rfl | hx
  · rw [sat_of_le hl (by omega), sat_of_le hl (by nlinarith)]
  · rw [mul_zero, mul_zero]
  · rw [sat_of_ge hl (by omega), sat_of_ge hl (by nlinarith)]

theorem sat_sat_mul (hl : cfg.Legal) (a x : Int) : sat cfg (sat cfg a * x) = sat cfg (a * x) := by
  by_cases hhigh : 65535 < a
  · exact sat_sat_mul_of_gt hl hhigh x
  by_cases hlow : a < -65535
  · have hneg := sat_sat_mul_of_gt hl (a := -a) (by omega) x
    rw [sat_neg hl, neg_mul, neg_mul, sat_neg hl, sat_neg hl] at hneg
    exact neg_injective hneg
  · rw [sat_of_inV (hl.inV_iff.mpr ⟨not_lt.mp hlow, not_lt.mp hhigh⟩)]

theorem satPowSteps_eq (hl : cfg.Legal) (x : Int) (n : Nat) : satPowSteps cfg x n = sat cfg (x ^ n) := by
  induction n with
  | zero => rw [satPowSteps, pow_zero, sat_of_inV (unit_inV hl 1 (.inl rfl))]
  | succ n ih => rw [satPowSteps, ih, sat_sat_mul hl, pow_succ]

/-- From exponent 16 on, the power of a base of absolute value 2 or more is outside V. -/
theorem two_pow_sixteen_le_natAbs_pow {x : Int} {n : Nat} (hx : 2 ≤ x.natAbs) (hn : 16 ≤ n) :
    65536 ≤ (x ^ n).natAbs :=
  calc 65536 = 2 ^ 16 := by norm_num
    _ ≤ 2 ^ n := Nat.pow_le_pow_right (by decide) hn
    _ ≤ x.natAbs ^ n := Nat.pow_le_pow_left hx n
    _ = (x ^ n).natAbs := (Int.natAbs_pow x n).symm

/-- The powers of a base of absolute value at most 1, by parity. -/
theorem unit_pow {x : Int} {n : Nat} (hx : x.natAbs ≤ 1) (hn : n ≠ 0) :
    x ^ n = if x = -1 ∧ n % 2 = 0 then 1 else x := by
  obtain rfl | rfl | rfl : x = -1 ∨ x = 0 ∨ x = 1 := by omega
  · rcases Nat.even_or_odd n with heven | hodd
    · rw [heven.neg_one_pow, if_pos ⟨rfl, Nat.even_iff.mp heven⟩]
    · rw [hodd.neg_one_pow, if_neg fun h => by have := Nat.odd_iff.mp hodd; omega]
  · rw [zero_pow hn, if_neg (by simp)]
  · rw [one_pow, if_neg (by simp)]

end

/-- Settles O45: large powers by their size and sign, powers of -1, 0 and 1 by parity, and the rest by induction, as a
saturation before a multiplication cannot be seen. -/
theorem powerBySaturatedStepsEqualsTheSaturatedPower : Obligations.PowerBySaturatedStepsEqualsTheSaturatedPower := by
  intro cfg hl x n
  rw [satPowFast, hl.valMax_eq, hl.valMin_eq]
  split_ifs with hbig hsign hunit hn hparity
  · obtain ⟨hx, hn⟩ := hbig
    have hlarge := two_pow_sixteen_le_natAbs_pow hx hn
    have hpos : 0 ≤ x ^ n := hsign.elim (fun h => pow_nonneg h.le n) fun h => (Nat.even_iff.mpr h).pow_nonneg x
    exact (sat_of_ge hl (by omega)).symm
  · obtain ⟨hx, hn⟩ := hbig
    obtain ⟨hx0, hodd⟩ := not_or.mp hsign
    have hlarge := two_pow_sixteen_le_natAbs_pow hx hn
    have hneg : x ^ n < 0 := (Nat.odd_iff.mpr (Nat.mod_two_ne_zero.mp hodd)).pow_neg (by omega)
    exact (sat_of_le hl (by omega)).symm
  · rw [hn, pow_zero, sat_of_inV (unit_inV hl 1 (.inl rfl))]
  · rw [unit_pow hunit hn, if_pos hparity, sat_of_inV (unit_inV hl 1 (.inl rfl))]
  · have hx : InV cfg x := hl.inV_iff.mpr (by omega)
    rw [unit_pow hunit hn, if_neg hparity, sat_of_inV hx]
  · exact satPowSteps_eq hl x n

/-! ### The named roundings (R119) -/

theorem roundFloor_eq (q : Rat) : roundFloor q = ⌊q⌋ := rfl

theorem roundTrunc_of_nonneg {q : Rat} (h : 0 ≤ q) : roundTrunc q = ⌊q⌋ := if_pos h

theorem roundTrunc_of_nonpos {q : Rat} (h : q ≤ 0) : roundTrunc q = ⌈q⌉ := by
  rcases h.lt_or_eq with hneg | rfl
  · exact if_neg (not_le.mpr hneg)
  · rw [roundTrunc_of_nonneg le_rfl, Int.floor_zero, Int.ceil_zero]

theorem abs_floor_sub_lt_one (q : Rat) : |(⌊q⌋ : Rat) - q| < 1 := by
  have hle := Int.floor_le q
  have hlt := Int.lt_floor_add_one q
  rw [abs_lt]
  constructor <;> linarith

theorem abs_ceil_sub_lt_one (q : Rat) : |(⌈q⌉ : Rat) - q| < 1 := by
  have hle := Int.le_ceil q
  have hlt := Int.ceil_lt_add_one q
  rw [abs_lt]
  constructor <;> linarith

theorem roundingLegal_roundFloor : RoundingLegal roundFloor :=
  ⟨fun n => (roundFloor_eq n).trans (Int.floor_intCast n), abs_floor_sub_lt_one⟩

theorem roundingLegal_roundTrunc : RoundingLegal roundTrunc := by
  refine ⟨fun n => ?_, fun q => ?_⟩
  · rcases le_total 0 (n : Rat) with h | h
    · rw [roundTrunc_of_nonneg h, Int.floor_intCast]
    · rw [roundTrunc_of_nonpos h, Int.ceil_intCast]
  · rcases le_total 0 q with h | h
    · rw [roundTrunc_of_nonneg h]
      exact abs_floor_sub_lt_one q
    · rw [roundTrunc_of_nonpos h]
      exact abs_ceil_sub_lt_one q

theorem roundFloor_div_natCast (a : Int) (d : Nat) : roundFloor ((a : Rat) / d) = a.fdiv d := by
  rw [roundFloor_eq, Rat.floor_intCast_div_natCast, Int.fdiv_eq_ediv_of_nonneg a (Int.natCast_nonneg d)]

theorem roundTrunc_div_natCast (a : Int) (d : Nat) : roundTrunc ((a : Rat) / d) = a.tdiv d := by
  rcases le_total 0 a with ha | ha
  · rw [roundTrunc_of_nonneg (div_nonneg (by exact_mod_cast ha) (Nat.cast_nonneg d)),
      Rat.floor_intCast_div_natCast, Int.tdiv_eq_ediv_of_nonneg ha]
  · have hneg : 0 ≤ -a := by omega
    rw [roundTrunc_of_nonpos (div_nonpos_of_nonpos_of_nonneg (by exact_mod_cast ha) (Nat.cast_nonneg d)),
      ← neg_neg (a : Rat), neg_div, Int.ceil_neg, ← Int.cast_neg, Rat.floor_intCast_div_natCast,
      ← Int.tdiv_eq_ediv_of_nonneg hneg, Int.neg_tdiv, neg_neg]

/-- A quotient with a negative divisor is one with a natural divisor. -/
theorem div_neg_natCast (a : Int) (d : Nat) : (a : Rat) / (-(d : Int) : Int) = ((-a : Int) : Rat) / d := by
  push_cast
  rw [div_neg, neg_div]

/-- Settles O47: both roundings are the floor or the ceiling, and a divisor's sign moves to the dividend. -/
theorem floorAndTruncAreLegalRoundings : Obligations.FloorAndTruncAreLegalRoundings := by
  refine ⟨roundingLegal_roundFloor, roundingLegal_roundTrunc, fun a b _ => ?_⟩
  obtain ⟨d, rfl | rfl⟩ := Int.eq_nat_or_neg b
  · exact ⟨roundFloor_div_natCast a d, roundTrunc_div_natCast a d⟩
  · rw [div_neg_natCast, ← Int.neg_fdiv_neg, ← Int.neg_tdiv_neg a, neg_neg]
    exact ⟨roundFloor_div_natCast (-a) d, roundTrunc_div_natCast (-a) d⟩

end Sys2Proof.Machine
